-- ==== Sys2Proof/Word.lean ====
section
/-! DEFINITION. The word types of ANFE: stream bytes of 8 bits, registers, command words, offsets and
lengths of 32 bits (R7), and the value NONE (R10). -/

namespace Sys2Proof

/-- A byte of a buffer (R50, R51). -/
abbrev Byte := BitVec 8

/-- A register, a command word, an offset or a length: 32 bits, unsigned (R7). -/
abbrev Word := BitVec 32

/-- `NONE`, the 32-bit value 0xFFFFFFFF (R10). -/
abbrev noneWord : Word := 0xFFFFFFFF#32

end Sys2Proof
end

