-- ==== Sys2Proof/Config.lean ====
section
/-! DEFINITION. What one build of ANFE fixes: the implementation parameters of R6, held in State as a
record that no step changes, so that a statement about every state is a statement about every build; and the
free values (no body), which stand for every value the spec leaves unspecified (R47, R66, R75). -/

namespace Sys2Proof

/-- The four address regions (R60). -/
inductive Region where
  | reg
  | utab
  | ibuf
  | obuf
  deriving DecidableEq, Repr

/-- The implementation parameters of R6. -/
structure Config where
  /-- `IBUF_BYTES`, the capacity of IBUF. -/
  ibufBytes  : Nat
  /-- `OBUF_BYTES`, the capacity of OBUF. -/
  obufBytes  : Nat
  /-- `UTAB_DEPTH`, the number of entries of UTAB. -/
  utabDepth  : Nat
  /-- `REGION_BASE_REG`. -/
  baseReg    : Nat
  /-- `REGION_BASE_UTAB`. -/
  baseUtab   : Nat
  /-- `REGION_BASE_IBUF`. -/
  baseIbuf   : Nat
  /-- `REGION_BASE_OBUF`. -/
  baseObuf   : Nat
  /-- `SCAN_MARGIN`, which ANFE version 1 fixes at 4 (R6, R161, D19). -/
  scanMargin : Nat
  deriving DecidableEq, Repr

/-- The size in bytes of each region (R60). -/
def Config.size (c : Config) : Region → Nat
  | .reg  => 256
  | .utab => 16 * c.utabDepth
  | .ibuf => c.ibufBytes
  | .obuf => c.obufBytes

/-- The host bus base address of each region (R60). -/
def Config.base (c : Config) : Region → Nat
  | .reg  => c.baseReg
  | .utab => c.baseUtab
  | .ibuf => c.baseIbuf
  | .obuf => c.baseObuf

/-- Two regions do not overlap on the host bus (R6). -/
abbrev Config.Apart (c : Config) (r r' : Region) : Prop :=
  c.base r + c.size r ≤ c.base r' ∨ c.base r' + c.size r' ≤ c.base r

/-- The constraints R6 puts on the parameters. -/
abbrev Config.Valid (c : Config) : Prop :=
  (4 ≤ c.ibufBytes ∧ c.ibufBytes ≤ 2 ^ 32 - 2) ∧
  (1 ≤ c.obufBytes ∧ c.obufBytes ≤ 2 ^ 32 - 2) ∧
  (1 ≤ c.utabDepth ∧ c.utabDepth ≤ 2 ^ 24) ∧
  4 ≤ c.scanMargin ∧
  c.Apart .reg .utab ∧ c.Apart .reg .ibuf ∧ c.Apart .reg .obuf ∧
  c.Apart .utab .ibuf ∧ c.Apart .utab .obuf ∧ c.Apart .ibuf .obuf

/-- The build that 95_test_vectors.md uses (64, 64, 4), with SCAN_MARGIN 4.
DESIGN CHOICE (log 1): the region bases, which the spec leaves to the platform. -/
def Config.vectors : Config where
  ibufBytes  := 64
  obufBytes  := 64
  utabDepth  := 4
  baseReg    := 0x0000
  baseUtab   := 0x1000
  baseIbuf   := 0x2000
  baseObuf   := 0x3000
  scanMargin := 4

/-- The k-th draw of a byte from a stream of draws (R66). A free value: no body, so nothing is known of it (log 3). Each
instance draws from a stream of its own (R246). -/
opaque Config.freeByte : (stream k : Nat) → Byte

/-- The k-th draw of a 32-bit word from a stream (R75). A free value: no body (log 3). -/
opaque Config.freeWord : (stream k : Nat) → Word

/-- What word `i` of UTAB (the one at offset 4i) holds after the `resets`-th reset of the instance of a stream, until a SCAN
writes it (R47). A free value: no body (log 3). It is one value, since a host read may be repeated (R69, log 9). -/
opaque Config.freeUtab : (stream resets i : Nat) → Word

end Sys2Proof
end

