-- ==== Sys2Proof/Syntax.lean ====
section
/-! DEFINITION. The command set (R2, R96): one constructor of `Instr` per row of spec/opcode_table.json,
with the immediate operands of the command word. ARG0 and ARG1 are registers, not part of the word (R95). -/

namespace Sys2Proof

/-- The BitReader source that SRC selects: 0 = IBUF, 1 = OBUF (R93). -/
inductive Source where
  | ibuf
  | obuf
  deriving DecidableEq, Repr

/-- The commands of ANFE (R96). -/
inductive Instr where
  | nop
  | scan
  | strip
  | brInit (src : Source)
  | rdbit
  | rdbits (n : Nat)
  | rdue
  | rdse
  deriving DecidableEq, Repr

/-- The error kinds a failing command reports (R220). -/
inductive ErrorCode where
  | illegalCommand
  | operandRange
  | readerNotReady
  | unexpectedEndOfUnit
  | truncatedExpGolombCode
  | expGolombOverflow
  | unitTableFull
  deriving DecidableEq, Repr

end Sys2Proof
end

