-- ==== Sys2Proof/WellFormed.lean ====
section
/-! DEFINITION. Which instruction terms have a command word. -/

namespace Sys2Proof

/-- The operands fit their fields: N is an unsigned 6-bit field, and a word with N from 33 to 63 is well-formed
too, though it raises OperandRange (R92). -/
def Instr.wf : Instr → Bool
  | .nop | .scan | .strip | .brInit _ | .rdbit | .rdue | .rdse => true
  | .rdbits n => decide (n < 64)

/-- What an assembler accepts: it rejects `rdbits` with n > 32 (R100). -/
def Instr.assembles : Instr → Bool
  | .nop | .scan | .strip | .brInit _ | .rdbit | .rdue | .rdse => true
  | .rdbits n => decide (n ≤ 32)

end Sys2Proof
end

