-- ==== Sys2Proof/Decode.lean ====
section
/-! DEFINITION. The command word's fields, the decoder (R97), the opcode map (R96) and the encoder (R100). -/

namespace Sys2Proof

/-- OP = w[7:0] (R91). -/
def opField (w : Word) : BitVec 8 := w.extractLsb' 0 8

/-- N = w[13:8] (R92). -/
def nField (w : Word) : BitVec 6 := w.extractLsb' 8 6

/-- The reserved bits w[15:14] (R90). -/
def reservedLow (w : Word) : BitVec 2 := w.extractLsb' 14 2

/-- SRC = w[16] (R93). -/
def srcField (w : Word) : BitVec 1 := w.extractLsb' 16 1

/-- The reserved bits w[31:17] (R90). -/
def reservedHigh (w : Word) : BitVec 15 := w.extractLsb' 17 15

/-- SRC as a buffer select: 0 selects IBUF, 1 selects OBUF (R93). -/
def Source.ofBit (b : BitVec 1) : Source := if b = 0#1 then .ibuf else .obuf

/-- The SRC bit of a buffer select (R93). -/
def Source.bit : Source → Nat
  | .ibuf => 0
  | .obuf => 1

/-- The instruction an opcode names, with the fields it uses. None: the opcode is reserved (R91, R98). -/
def instrOfOpcode (op n : Nat) (src : Source) : Option Instr :=
  match op with
  | 0 => some .nop
  | 1 => some .scan
  | 2 => some .strip
  | 3 => some (.brInit src)
  | 4 => some .rdbit
  | 5 => some (.rdbits n)
  | 6 => some .rdue
  | 7 => some .rdse
  | _ => none

/-- R94 (b), (c), (d): a reserved bit is 1, or N or SRC is used with an opcode that has no such operand. -/
def strayField (w : Word) : Bool :=
  reservedLow w != 0 || reservedHigh w != 0
    || (nField w != 0 && opField w != 0x05) || (srcField w != 0 && opField w != 0x03)

/-- The instruction a command word stands for. None: the word is illegal (R94). RDBITS with N from 33 to 63 is a
well-formed word (R92) and gives its instruction here. -/
def parse (w : Word) : Option Instr :=
  if strayField w then none
  else instrOfOpcode (opField w).toNat (nField w).toNat (Source.ofBit (srcField w))

/-- The largest fixed-width read is 32 bits (R7, R92). -/
def maxReadBits : Nat := 32

/-- The one range error of a word: RDBITS with N > 32 (R92, R221). -/
def Instr.countTooLarge : Instr → Bool
  | .rdbits n => decide (maxReadBits < n)
  | _ => false

/-- Decoding is total, from words to a command or an error (R97). Every check of R97 but the last raises
IllegalCommand, so their order among themselves does not show. -/
def decode (w : Word) : Except ErrorCode Instr :=
  match parse w with
  | none => .error .illegalCommand
  | some i => if i.countTooLarge then .error .operandRange else .ok i

/-- A row of the opcode map (R96): a word w selects it when `w & mask = match`. -/
structure OpcodeRow where
  mnemonic  : String
  matchWord : Word
  mask      : Word
  deriving DecidableEq, Repr

/-- The row of R96's map that each instruction belongs to. -/
def Instr.row : Instr → OpcodeRow
  | .nop      => { mnemonic := "NOP",     matchWord := 0x00000000, mask := 0xFFFFFFFF }
  | .scan     => { mnemonic := "SCAN",    matchWord := 0x00000001, mask := 0xFFFFFFFF }
  | .strip    => { mnemonic := "STRIP",   matchWord := 0x00000002, mask := 0xFFFFFFFF }
  | .brInit _ => { mnemonic := "BR_INIT", matchWord := 0x00000003, mask := 0xFFFEFFFF }
  | .rdbit    => { mnemonic := "RDBIT",   matchWord := 0x00000004, mask := 0xFFFFFFFF }
  | .rdbits _ => { mnemonic := "RDBITS",  matchWord := 0x00000005, mask := 0xFFFFC0FF }
  | .rdue     => { mnemonic := "RDUE",    matchWord := 0x00000006, mask := 0xFFFFFFFF }
  | .rdse     => { mnemonic := "RDSE",    matchWord := 0x00000007, mask := 0xFFFFFFFF }

/-- The opcode map of R96, in its order. -/
def opcodeMap : List OpcodeRow :=
  [Instr.nop.row, Instr.scan.row, Instr.strip.row, (Instr.brInit .ibuf).row, Instr.rdbit.row,
   (Instr.rdbits 0).row, Instr.rdue.row, Instr.rdse.row]

/-- The word of an instruction (R96, R100): `rdbits n` is 0x00000005 OR (n << 8), SRC is bit 16. -/
def encode : Instr → Word
  | .nop        => 0x00000000
  | .scan       => 0x00000001
  | .strip      => 0x00000002
  | .brInit src => 0x00000003 ||| (BitVec.ofNat 32 src.bit <<< 16)
  | .rdbit      => 0x00000004
  | .rdbits n   => 0x00000005 ||| (BitVec.ofNat 32 n <<< 8)
  | .rdue       => 0x00000006
  | .rdse       => 0x00000007

/-- The instruction read from a word whose low nbits are w's, the other bits 0. A command is one 32-bit word (R90),
and bit 0 of the table is bit 0 of the word (R96). -/
def decodeTableWord (nbits w : Nat) : Option Instr :=
  parse (BitVec.ofNat 32 (w % 2 ^ nbits))

end Sys2Proof
end

