-- ==== Sys2Proof/Machine/State.lean ====
section
/-! DEFINITION. The state of one ANFE instance (R20), the host's pending bus operations beside it, the reasons a step
stops, and the state after reset (R55, R260). -/

namespace Sys2Proof.Machine

/-- A byte buffer: the bytes stored since reset, by offset, offsets strictly rising. An offset that is not listed has
not been written since reset, and a read of it is a draw (R66). -/
abbrev Memory := List Host.Cell

/-- BR.state (R40, R43). -/
inductive BrState where
  | idle
  | ready
  | failed
  deriving DecidableEq, Repr

/-- The BitReader state BR (R40). The BR_* registers and STATUS.BR_STATE are views of it (R34, R28). -/
structure BitReader where
  base  : Word
  size  : Word
  byte  : Word
  bit   : BitVec 3
  src   : Source
  state : BrState
  deriving DecidableEq, Repr

/-- The stored fields of STATUS (R23). BR_STATE is a view of BR.state (R28), and the reserved bits read 0. -/
structure Status where
  busy    : Bool
  done    : Bool
  err     : Bool
  short   : Bool
  nosc    : Bool
  errCode : Byte
  deriving DecidableEq, Repr

/-- Words 0 to 2 of a unit-table entry (R45). Word 3 always reads 0. -/
structure UnitEntry where
  dataOff : Word
  len     : Word
  hdr     : Word
  deriving DecidableEq, Repr

/-- The registers of REG (R21). `reserved` is any reserved offset (R35). -/
inductive Reg where
  | cmd
  | status
  | arg0
  | arg1
  | result
  | unitCount
  | lastSc
  | outLen
  | brBase
  | brSize
  | brByte
  | brBit
  | brSrc
  | capIbuf
  | capObuf
  | capUtab
  | reserved
  deriving DecidableEq, Repr

/-- Where a host access goes: a bus address (R60), or an offset of a named region (the `X:a` of R101). -/
inductive BusTarget where
  | address (a : Nat)
  | offset (r : Region) (a : Nat)
  deriving DecidableEq, Repr

/-- What the outside world does next. A width is in bytes. -/
inductive Input where
  /-- A host read. -/
  | read (t : BusTarget) (bytes : Nat)
  /-- A host write of the low `bytes` bytes of v. -/
  | write (t : BusTarget) (bytes : Nat) (v : Word)
  /-- The host's `wait`: read STATUS until DONE = 1 (R101). -/
  | wait
  /-- The engine takes its step before the host's next operation (R212, R281). -/
  | engine
  /-- The reset input is asserted (R260). -/
  | reset
  deriving DecidableEq, Repr

/-- The architectural state of R20, with the parameters of the build, and the model's own fields for the world outside:
`inputs`, `readData`, `stream`, `draws` and `resets` (log 2, log 3, log 4). -/
structure State where
  /-- The build's parameters (R6), which the CAP registers report (R33). No step changes them. -/
  config    : Config
  /-- STATUS (R23), less BR_STATE. -/
  status    : Status
  /-- ARG0 (R29). -/
  arg0      : Word
  /-- ARG1 (R29). -/
  arg1      : Word
  /-- RESULT (R30). -/
  result    : Word
  /-- UNIT_COUNT (R31). -/
  unitCount : Word
  /-- LAST_SC (R31). -/
  lastSc    : Word
  /-- OUT_LEN (R32). -/
  outLen    : Word
  /-- BR (R40). -/
  br        : BitReader
  /-- UTAB (R45): the entries written since reset, which are the first ones, since every SCAN writes from entry 0. -/
  utab      : List UnitEntry
  /-- IBUF (R50). -/
  ibuf      : Memory
  /-- OBUF (R51). -/
  obuf      : Memory
  /-- The command latch (R52): the word of the command in progress, or empty. -/
  latch     : Option Word
  /-- The model's own: what the host, the reset input and the scheduler do next, in order (R71). -/
  inputs    : List Input
  /-- The model's own: what the last host read returned to the host. -/
  readData  : Option Word
  /-- The model's own: which stream of free values this instance draws from (R66, R246). No step changes it. -/
  stream    : Nat
  /-- The model's own: how many draws have been made (R66). -/
  draws     : Nat
  /-- The model's own: how many resets came before, which names what UTAB holds after the last one (R47). -/
  resets    : Nat
  deriving DecidableEq, Repr

/-- Why a host access is a bus fault (R64). -/
inductive BusFault where
  /-- A width or an alignment that R62 does not accept. -/
  | badAccess
  /-- The access reaches an offset at or beyond the size of its region. -/
  | pastRegion
  /-- The address is outside all four regions. -/
  | unmapped
  deriving DecidableEq, Repr

/-- The host steps that stop the machine (R229). No command stops it. -/
inductive Fault where
  /-- A host read or write that is a bus fault (R64). Raised by `hostRead` and `hostWrite`. Safe: the spec asks a
  model to make the host step a fault. -/
  | busFault (cause : BusFault)
  /-- A host write to an ANFE region while BUSY = 1 (R270). Raised by `hostWrite`. Safe: the spec asks for it. -/
  | hostWriteWhileBusy
  deriving DecidableEq, Repr

/-- Why a step has no meaning. -/
inductive Refusal where
  /-- An instruction without a meaning yet. No arm of `exec` raises it. Safe. -/
  | notModelled (mnemonic : String)
  deriving DecidableEq, Repr

/-- STATUS after reset (R55). -/
def Status.reset : Status where
  busy    := false
  done    := false
  err     := false
  short   := false
  nosc    := false
  errCode := 0

/-- BR after reset (R55). -/
def BitReader.reset : BitReader where
  base  := 0
  size  := 0
  byte  := 0
  bit   := 0
  src   := .ibuf
  state := .idle

/-- The state of a build c after reset, with nothing pending outside (R55). No byte of the buffers and no entry of UTAB
is listed: a read of a byte is a draw (R66), and a read of UTAB is what it happens to hold (R47). -/
def State.resetWith (c : Config) : State where
  config    := c
  status    := Status.reset
  arg0      := 0
  arg1      := 0
  result    := 0
  unitCount := 0
  lastSc    := noneWord
  outLen    := 0
  br        := BitReader.reset
  utab      := []
  ibuf      := []
  obuf      := []
  latch     := none
  inputs    := []
  readData  := none
  stream    := 0
  draws     := 0
  resets    := 0

/-- The machine right after reset, in the build of the test vectors (DESIGN CHOICE, log 1). -/
def State.reset : State := State.resetWith Config.vectors

end Sys2Proof.Machine
end

