-- ==== Sys2Proof/Machine/Flags.lean ====
section
/-! DEFINITION. STATUS: the error codes (R220), the writes of its fields at issue (R211), at success (R212), at failure
(R224) and by SCAN (R166), and the register's word (R23). -/

namespace Sys2Proof.Machine

/-- The numeric code of an error (R220). -/
def errorNumber : ErrorCode → Byte
  | .illegalCommand         => 0x01
  | .operandRange           => 0x02
  | .readerNotReady         => 0x03
  | .unexpectedEndOfUnit    => 0x04
  | .truncatedExpGolombCode => 0x05
  | .expGolombOverflow      => 0x06
  | .unitTableFull          => 0x07

/-- The data errors, which put the BitReader in FAILED (R223, R224). -/
def isDataError : ErrorCode → Bool
  | .unexpectedEndOfUnit | .truncatedExpGolombCode | .expGolombOverflow => true
  | .illegalCommand | .operandRange | .readerNotReady | .unitTableFull => false

/-- STATUS at the issue of a command (R211). -/
def Status.issued (st : Status) : Status :=
  { st with busy := true, done := false, err := false, errCode := 0 }

/-- STATUS at a successful completion (R212). -/
def Status.succeeded (st : Status) : Status :=
  { st with busy := false, done := true, err := false, errCode := 0 }

/-- STATUS at a completion that failed with e (R224). -/
def Status.failedWith (e : ErrorCode) (st : Status) : Status :=
  { st with busy := false, done := true, err := true, errCode := errorNumber e }

/-- The information bits a successful SCAN writes: SHORT and NOSC (R166). -/
def Status.scanned (short nosc : Bool) (st : Status) : Status :=
  { st with short := short, nosc := nosc }

/-- STATUS.BR_STATE: 0 IDLE, 1 READY, 2 FAILED (R23, R28). -/
def BrState.field : BrState → BitVec 2
  | .idle   => 0
  | .ready  => 1
  | .failed => 2

/-- The word STATUS reads as (R23). -/
def Status.word (st : Status) (b : BrState) : Word :=
  (0#14 ++ b.field ++ st.errCode ++ 0#3 ++ BitVec.ofBool st.nosc ++ BitVec.ofBool st.short
    ++ BitVec.ofBool st.err ++ BitVec.ofBool st.done ++ BitVec.ofBool st.busy : BitVec (14 + 2 + 8 + 3 + 1 + 1 + 1 + 1 + 1))

end Sys2Proof.Machine
end

