-- ==== Sys2Proof/Machine/Ops.lean ====
section
/-! DEFINITION. The shared operations: the buffers, the issue of a command, its completion, and the raising of an error.
An error is ANFE's only exception (R227): it saves its code in STATUS and ends the command (R224). What undoes it is the
next issue, which clears ERR and ERRCODE (R211, R228). -/

namespace Sys2Proof.Machine

/-- The byte stored at an offset since reset, if any (R66). -/
def Memory.lookup : Memory → Nat → Option Byte
  | [], _ => none
  | (b, v) :: rest, a => if b = a then some v else Memory.lookup rest a

/-- Store a byte, keeping the offsets strictly rising. -/
def Memory.write : Memory → Nat → Byte → Memory
  | [], a, v => [(a, v)]
  | (b, w) :: rest, a, v =>
    if a < b then (a, v) :: (b, w) :: rest
    else if a = b then (a, v) :: rest
    else (b, w) :: Memory.write rest a v

/-- Store bytes at rising offsets from a. -/
def Memory.writeBytes : Memory → Nat → List Byte → Memory
  | m, _, [] => m
  | m, a, v :: vs => Memory.writeBytes (Memory.write m a v) (a + 1) vs

/-- The canonical form: offsets strictly rising. An unlisted offset reads as no fixed value (log 5), so no entry repeats
what an unlisted offset would read as. -/
abbrev Memory.wf (m : Memory) : Prop := m.Pairwise (fun x y => x.1 < y.1)

/-- Every listed offset is below a bound. -/
abbrev Memory.below (m : Memory) (bound : Nat) : Prop := ∀ x ∈ m, x.1 < bound

/-- A read of the byte at offset a: the byte last written, or the drawn one if none was (R66). -/
def Memory.byteAt (m : Memory) (a : Nat) (drawn : Byte) : Byte := (m.lookup a).getD drawn

/-- The k-th draw of a byte from now on (R66, log 3). -/
def State.drawByte (s : State) (k : Nat) : Byte := Config.freeByte s.stream (s.draws + k)

/-- A draw of a 32-bit word (R75, log 3). -/
def State.drawWord (s : State) : Word := Config.freeWord s.stream s.draws

/-- The buffer that SRC names (R93). -/
def State.buffer (s : State) : Source → Memory
  | .ibuf => s.ibuf
  | .obuf => s.obuf

/-- capacity(src) (R40). -/
def State.capacity (s : State) : Source → Nat
  | .ibuf => s.config.ibufBytes
  | .obuf => s.config.obufBytes

/-- The issue of the word w (R211). -/
def State.issue (w : Word) (s : State) : State :=
  { s with latch := some w, status := s.status.issued }

/-- The completion of a command that succeeded, on a state with its writes (R212). -/
def State.succeed (s : State) : State :=
  { s with latch := none, status := s.status.succeeded }

/-- Raising error e: what a failed command leaves (R224). A data error puts the BitReader in FAILED (R225). -/
def State.raise (e : ErrorCode) (s : State) : State :=
  { s with
    latch := none
    status := s.status.failedWith e
    br := if isDataError e then { s.br with state := .failed } else s.br }

/-- k draws are used up, so that no later read shares one of them (R66). -/
def State.spend (k : Nat) (s : State) : State :=
  { s with draws := s.draws + k }

/-- The completion step (R212) of a command that was issued in s, made at most k draws, and answered a state with its
writes or an error (R11). -/
def State.complete (s : State) (k : Nat) : Except ErrorCode State → State
  | .ok t    => (t.succeed).spend k
  | .error e => (s.raise e).spend k

end Sys2Proof.Machine
end

