-- ==== Sys2Proof/Machine/Operands.lean ====
section
/-! DEFINITION. The operands of the commands: ARG0 and ARG1 as unbounded integers (R95, R8), the bytes of an IBUF range
(R160, R190), and the bits of the BitReader's slice from its cursor on (R9, R42). -/

namespace Sys2Proof.Machine

/-- ARG0 as the offset or base operand (R95). -/
def State.argOff (s : State) : Nat := s.arg0.toNat

/-- ARG1 as the length or size operand (R95). -/
def State.argLen (s : State) : Nat := s.arg1.toNat

/-- Byte j of the IBUF range that starts at ARG0, read as the command's k-th draw (R66, R67). -/
def State.rangeByte (s : State) (k j : Nat) : Byte :=
  s.ibuf.byteAt (s.argOff + j) (s.drawByte k)

/-- The number of bits consumed, `8 * byte + bit` (R41). -/
def BitReader.consumed (br : BitReader) : Nat := 8 * br.byte.toNat + br.bit.toNat

/-- `remaining()`, the number of unconsumed bits in the slice (R42). -/
def BitReader.remaining (br : BitReader) : Nat := 8 * br.size.toNat - br.consumed

/-- The cursor that has consumed c bits: byte `c div 8`, bit `c mod 8` (R9, R41). -/
def BitReader.setConsumed (c : Nat) (br : BitReader) : BitReader :=
  { br with byte := BitVec.ofNat 32 (c / 8), bit := BitVec.ofNat 3 (c % 8) }

/-- `advance()` in its own words (R42). -/
def BitReader.advance (br : BitReader) : BitReader :=
  if br.bit = 7#3 then { br with byte := br.byte + 1, bit := 0 } else { br with bit := br.bit + 1 }

/-- The t-th bit from the cursor: MSB-first, bit `7 - (j mod 8)` of the slice's byte `j div 8`, where j bits come before
it in the slice (R9, R42). Each bit is a read of its byte (R66). -/
def State.streamBit (s : State) (t : Nat) : Bool :=
  ((s.buffer s.br.src).byteAt (s.br.base.toNat + (s.br.consumed + t) / 8) (s.drawByte t)).getLsbD
    (7 - (s.br.consumed + t) % 8)

end Sys2Proof.Machine
end

