-- ==== Sys2Proof/Machine/BitReaderCommands.lean ====
section
/-! DEFINITION. BR_INIT, RDBIT, RDBITS, RDUE and RDSE (40_bitreader.md). The readers below see the slice as its bits from
the cursor on (`bit t` is the t-th) and the number of bits that remain, and answer a value with the number of bits it
took, or an error. -/

namespace Sys2Proof.Machine

/-- The value of n bits from the t-th on, the first read the most significant (R123: v <- 2*v + next_bit()). -/
def bitsValue (bit : Nat → Bool) (t : Nat) : Nat → Nat
  | 0 => 0
  | n + 1 => 2 * bitsValue bit t n + (bit (t + n)).toNat

/-- `read_bits(n)` (R123); with n = 1, `read_bit` (R122). -/
def readFixed (n : Nat) (bit : Nat → Bool) (avail : Nat) : Except ErrorCode (Nat × Nat) :=
  if avail < n then .error .unexpectedEndOfUnit else .ok (bitsValue bit 0 n, n)

/-- UE_MAX_LZ, the largest number of leading zeros (R7, R124). -/
def ueMaxLz : Nat := 31

/-- The loop of `ue()` that counts the leading zeros, k of them read so far and f more allowed (R124). -/
def ueZeros (bit : Nat → Bool) (avail : Nat) : Nat → Nat → Except ErrorCode Nat
  | k, 0 =>
    if avail ≤ k then .error .truncatedExpGolombCode
    else if bit k then .ok k
    else .error .expGolombOverflow
  | k, f + 1 =>
    if avail ≤ k then .error .truncatedExpGolombCode
    else if bit k then .ok k
    else ueZeros bit avail (k + 1) f

/-- `ue()` (R124): k zeros, a 1, then k bits of suffix. -/
def readUe (bit : Nat → Bool) (avail : Nat) : Except ErrorCode (Nat × Nat) :=
  match ueZeros bit avail 0 ueMaxLz with
  | .error e => .error e
  | .ok k =>
    if avail - (k + 1) < k then .error .unexpectedEndOfUnit
    else .ok (2 ^ k - 1 + bitsValue bit (k + 1) k, 2 * k + 1)

/-- The bits a `ue()` can read, at most: 31 zeros, the 1, and 31 bits of suffix (R124, R214). -/
def ueMaxBits : Nat := 2 * ueMaxLz + 1

/-- The signed value of a codeNum (R125). -/
def seValue (c : Nat) : Int :=
  if c % 2 = 1 then ((c + 1) / 2 : Nat) else -((c / 2 : Nat) : Int)

/-- An unsigned value in a 32-bit register (R8, R30). -/
def unsignedResult (v : Nat) : Word := BitVec.ofNat 32 v

/-- A codeNum as RDSE's result, in two's complement (R125). -/
def signedResult (c : Nat) : Word := BitVec.ofInt 32 (seValue c)

/-- A read command: `require_ready()` (R120), then the decoding; the new cursor and RESULT are its only writes. -/
def State.readCommand (s : State) (decoder : (Nat → Bool) → Nat → Except ErrorCode (Nat × Nat))
    (toResult : Nat → Word) : Except ErrorCode State :=
  if s.br.state = .ready then
    match decoder s.streamBit s.br.remaining with
    | .error e => .error e
    | .ok (v, used) =>
      .ok { s with result := toResult v, br := s.br.setConsumed (s.br.consumed + used) }
  else .error .readerNotReady

/-- The BitReader over the slice of ARG0 and ARG1 in buffer src, at its start (R121). -/
def State.initialReader (s : State) (src : Source) : BitReader where
  base  := s.arg0
  size  := s.arg1
  byte  := 0
  bit   := 0
  src   := src
  state := .ready

/-- `BR_INIT` (R121). -/
def execBrInit (src : Source) (s : State) : Host.Outcome State Fault Refusal :=
  .next (s.complete 0
    (if s.capacity src < s.argOff + s.argLen then .error .operandRange
     else .ok { s with br := s.initialReader src }))

/-- `RDBIT` (R122). -/
def execRdbit (s : State) : Host.Outcome State Fault Refusal :=
  .next (s.complete 1 (s.readCommand (readFixed 1) unsignedResult))

/-- The draws RDBITS can use: one a bit; a count that is refused reads nothing (R97). -/
def rdbitsDraws (n : Nat) : Nat := if maxReadBits < n then 0 else n

/-- `RDBITS n` (R123). The count is checked before anything else (R97, R226). -/
def execRdbits (n : Nat) (s : State) : Host.Outcome State Fault Refusal :=
  .next (s.complete (rdbitsDraws n)
    (if maxReadBits < n then .error .operandRange else s.readCommand (readFixed n) unsignedResult))

/-- `RDUE` (R124). -/
def execRdue (s : State) : Host.Outcome State Fault Refusal :=
  .next (s.complete ueMaxBits (s.readCommand readUe unsignedResult))

/-- `RDSE` (R125). -/
def execRdse (s : State) : Host.Outcome State Fault Refusal :=
  .next (s.complete ueMaxBits (s.readCommand readUe signedResult))

end Sys2Proof.Machine
end

