-- ==== Sys2Proof/Machine/Control.lean ====
section
/-! DEFINITION. NOP (43_control.md). -/

namespace Sys2Proof.Machine

/-- `NOP` (R210): complete at once, with success. -/
def execNop (s : State) : Host.Outcome State Fault Refusal :=
  .next (s.complete 0 (.ok s))

end Sys2Proof.Machine
end

