-- ==== Sys2Proof/Machine/Scanner.lean ====
section
/-! DEFINITION. SCAN (41_scanner.md). The scan sees the range as `rd k j`: byte j of the range, as the command's k-th
draw. Each probe reads its four bytes once (R172), and each unit's header byte is one more read. -/

namespace Sys2Proof.Machine

/-- A detected start code: the document's StartCodeInfo, which lives only within one SCAN (R53). -/
structure StartCode where
  index   : Nat
  codeLen : Nat
  deriving DecidableEq, Repr

/-- The length of the start code at a position whose four bytes are these, if there is one (R161). -/
def startCodeLength (b0 b1 b2 b3 : Byte) : Option Nat :=
  if b0 = 0x00 ∧ b1 = 0x00 ∧ b2 = 0x01 then some 3
  else if b0 = 0x00 ∧ b1 = 0x00 ∧ b2 = 0x00 ∧ b3 = 0x01 then some 4
  else none

/-- The probe of position i: its four bytes are the draws 4i to 4i+3. -/
def probe (rd : Nat → Nat → Byte) (i : Nat) : Option Nat :=
  startCodeLength (rd (4 * i) i) (rd (4 * i + 1) (i + 1)) (rd (4 * i + 2) (i + 2)) (rd (4 * i + 3) (i + 3))

/-- The start codes from position i on: left to right, resuming after a match or at the next byte (R160, R161). The first
argument bounds the number of probes. -/
def findStartCodes (rd : Nat → Nat → Byte) (margin len : Nat) : Nat → Nat → List StartCode
  | 0, _ => []
  | fuel + 1, i =>
    if i + margin ≤ len then
      match probe rd i with
      | some c => { index := i, codeLen := c } :: findStartCodes rd margin len fuel (i + c)
      | none => findStartCodes rd margin len fuel (i + 1)
    else []

/-- The header of a unit without a first byte: EMPTY = 1 (R46, R163). -/
def emptyHeader : Word := 0x00000100

/-- The unit that starts at `start` and ends before `stop`; its first byte is the draw k (R160, R164). -/
def unitEntry (rd : Nat → Nat → Byte) (k start stop : Nat) : UnitEntry where
  dataOff := BitVec.ofNat 32 start
  len     := BitVec.ofNat 32 (stop - start)
  hdr     := if 1 ≤ stop - start then (rd k start).setWidth 32 else emptyHeader

/-- Where a unit ends: just before the next start code, or at the end of the range (R162). -/
def unitEnd (len : Nat) : List StartCode → Nat
  | [] => len
  | c :: _ => c.index

/-- The units of a list of start codes, the j-th opened by its first (R162). Header reads are the draws from 4*len on. -/
def unitsOf (rd : Nat → Nat → Byte) (len : Nat) : Nat → List StartCode → List UnitEntry
  | _, [] => []
  | j, c :: rest =>
    unitEntry rd (4 * len + j) (c.index + c.codeLen) (unitEnd len rest) :: unitsOf rd len (j + 1) rest

/-- LAST_SC: the index of the last start code found, or NONE (R165). -/
def lastStart (codes : List StartCode) : Word :=
  match codes.getLast? with
  | some c => BitVec.ofNat 32 c.index
  | none => noneWord

/-- The start codes of the range of ARG0 and ARG1. A range of len bytes has at most len + 1 probes (R172). -/
def State.startCodes (s : State) : List StartCode :=
  findStartCodes s.rangeByte s.config.scanMargin s.argLen (s.argLen + 1) 0

/-- The units of the range of ARG0 and ARG1. -/
def State.scanUnits (s : State) : List UnitEntry :=
  unitsOf s.rangeByte s.argLen 0 s.startCodes

/-- What SCAN writes, or the error it raises (R160). -/
def State.scanRange (s : State) : Except ErrorCode State :=
  if s.config.ibufBytes < s.argOff + s.argLen then .error .operandRange
  else if s.config.utabDepth < s.startCodes.length then .error .unitTableFull
  else .ok { s with
    utab := s.scanUnits ++ s.utab.drop s.scanUnits.length
    unitCount := BitVec.ofNat 32 s.startCodes.length
    lastSc := lastStart s.startCodes
    status := s.status.scanned (decide (s.argLen < s.config.scanMargin)) s.startCodes.isEmpty }

/-- The draws a SCAN can use: four a probe of at most len + 1, and one a unit. -/
def scanDraws (len : Nat) : Nat := 5 * len + 4

/-- `SCAN` (R160). -/
def execScan (s : State) : Host.Outcome State Fault Refusal :=
  .next (s.complete (scanDraws s.argLen) s.scanRange)

end Sys2Proof.Machine
end

