-- ==== Sys2Proof/Machine/Stripper.lean ====
section
/-! DEFINITION. STRIP (42_stripper.md). The range is seen as `rd k j`: byte j of the range, as the command's k-th draw.
Index i uses the draws 5i to 5i+4: four for the test, one for the copy. -/

namespace Sys2Proof.Machine

/-- `epb(i)`: the byte at index i is an emulation-prevention byte (R190, R191). -/
def isEmulationByte (rd : Nat → Nat → Byte) (len i : Nat) : Bool :=
  rd (5 * i) i == 0x03 && decide (2 ≤ i) && rd (5 * i + 1) (i - 2) == 0x00 && rd (5 * i + 2) (i - 1) == 0x00
    && (i + 1 == len || decide ((rd (5 * i + 3) (i + 1)).toNat ≤ 0x03))

/-- The byte that index i contributes to the output: none if it is left out (R191). -/
def keptByte (rd : Nat → Nat → Byte) (len i : Nat) : Option Byte :=
  if isEmulationByte rd len i then none else some (rd (5 * i + 4) i)

/-- The RBSP of the range: the kept bytes in input order (R192). -/
def strippedBytes (rd : Nat → Nat → Byte) (len : Nat) : List Byte :=
  (List.range len).filterMap (keptByte rd len)

/-- What STRIP writes, or the error it raises (R190). -/
def State.stripRange (s : State) : Except ErrorCode State :=
  if s.config.ibufBytes < s.argOff + s.argLen then .error .operandRange
  else if s.config.obufBytes < s.argLen then .error .operandRange
  else .ok { s with
    obuf := s.obuf.writeBytes 0 (strippedBytes s.rangeByte s.argLen)
    outLen := BitVec.ofNat 32 (strippedBytes s.rangeByte s.argLen).length }

/-- The draws a STRIP can use: five an index. -/
def stripDraws (len : Nat) : Nat := 5 * len

/-- `STRIP` (R190). -/
def execStrip (s : State) : Host.Outcome State Fault Refusal :=
  .next (s.complete (stripDraws s.argLen) s.stripRange)

end Sys2Proof.Machine
end

