-- ==== Sys2Proof/Machine/Dispatch.lean ====
section
/-! DEFINITION. The meaning of every command: one arm per row of spec/opcode_table.json. -/

namespace Sys2Proof.Machine

def exec (i : Instr) (s : State) : Host.Outcome State Fault Refusal :=
  match i with
  | .nop => Sys2Proof.Machine.execNop s
  | .scan => Sys2Proof.Machine.execScan s
  | .strip => Sys2Proof.Machine.execStrip s
  | .brInit src => Sys2Proof.Machine.execBrInit src s
  | .rdbit => Sys2Proof.Machine.execRdbit s
  | .rdbits n => Sys2Proof.Machine.execRdbits n s
  | .rdue => Sys2Proof.Machine.execRdue s
  | .rdse => Sys2Proof.Machine.execRdse s

end Sys2Proof.Machine
end

