-- ==== Sys2Proof/Machine/HostBus.lean ====
section
/-! DEFINITION. The host's bus accesses: the address map (R60), which accesses are accepted (R62, R64), what a read
returns, idle (R21, R45, R63) and busy (R75), and what a write does (R22, R35, R61, R63, R270). -/

namespace Sys2Proof.Machine

/-- The offset a bus address has in region r, if r holds it (R60). -/
def regionOffset (c : Config) (a : Nat) (r : Region) : Option (Region × Nat) :=
  if c.base r ≤ a ∧ a < c.base r + c.size r then some (r, a - c.base r) else none

/-- The region and offset of a host access. None: the address is outside all four regions (R64). -/
def resolve (c : Config) : BusTarget → Option (Region × Nat)
  | .offset r a => some (r, a)
  | .address a =>
    (regionOffset c a .reg).or <| (regionOffset c a .utab).or <| (regionOffset c a .ibuf).or (regionOffset c a .obuf)

/-- The accepted widths and alignments (R62). -/
def accepted (r : Region) (off bytes : Nat) : Bool :=
  match r with
  | .reg | .utab => bytes == 4 && off % 4 == 0
  | .ibuf | .obuf => bytes == 1 || (bytes == 4 && off % 4 == 0)

/-- The region and offset of an access, or the bus fault it is (R64). -/
def checkAccess (c : Config) (t : BusTarget) (bytes : Nat) : Except BusFault (Region × Nat) :=
  match resolve c t with
  | none => .error .unmapped
  | some (r, off) =>
    if accepted r off bytes then
      if off + bytes ≤ c.size r then .ok (r, off) else .error .pastRegion
    else .error .badAccess

/-- The register at an offset of REG (R21). -/
def regAt (off : Nat) : Reg :=
  if off = 0x00 then .cmd
  else if off = 0x04 then .status
  else if off = 0x08 then .arg0
  else if off = 0x0C then .arg1
  else if off = 0x10 then .result
  else if off = 0x14 then .unitCount
  else if off = 0x18 then .lastSc
  else if off = 0x1C then .outLen
  else if off = 0x20 then .brBase
  else if off = 0x24 then .brSize
  else if off = 0x28 then .brByte
  else if off = 0x2C then .brBit
  else if off = 0x30 then .brSrc
  else if off = 0x40 then .capIbuf
  else if off = 0x44 then .capObuf
  else if off = 0x48 then .capUtab
  else .reserved

/-- What a register reads as (R21). CMD and the reserved offsets read 0 (R22, R35); the BR registers are views of BR
(R34); the CAP registers report the parameters (R33). -/
def State.readReg (s : State) : Reg → Word
  | .cmd       => 0
  | .status    => s.status.word s.br.state
  | .arg0      => s.arg0
  | .arg1      => s.arg1
  | .result    => s.result
  | .unitCount => s.unitCount
  | .lastSc    => s.lastSc
  | .outLen    => s.outLen
  | .brBase    => s.br.base
  | .brSize    => s.br.size
  | .brByte    => s.br.byte
  | .brBit     => s.br.bit.setWidth 32
  | .brSrc     => BitVec.ofNat 32 s.br.src.bit
  | .capIbuf   => BitVec.ofNat 32 s.config.ibufBytes
  | .capObuf   => BitVec.ofNat 32 s.config.obufBytes
  | .capUtab   => BitVec.ofNat 32 s.config.utabDepth
  | .reserved  => 0

/-- The registers that read exactly while BUSY = 1 (R75). A reserved offset holds no register and reads 0 (R35). -/
def exactWhileBusy : Reg → Bool
  | .status | .arg0 | .arg1 | .capIbuf | .capObuf | .capUtab | .reserved => true
  | .cmd | .result | .unitCount | .lastSc | .outLen
  | .brBase | .brSize | .brByte | .brBit | .brSrc => false

/-- The word of UTAB at an offset: word 3 of an entry reads 0 (R45), and an entry not written since reset reads as what it
happens to hold, the same at each read (R47, R69, log 9). -/
def State.readUtab (s : State) (off : Nat) : Word :=
  if off / 4 % 4 = 3 then 0
  else
    match s.utab[off / 16]? with
    | none => Config.freeUtab s.stream s.resets (off / 4)
    | some e => if off / 4 % 4 = 0 then e.dataOff else if off / 4 % 4 = 1 then e.len else e.hdr

/-- Four bytes as a word, the byte at the lowest offset in bits 7:0 (R63). -/
def littleEndian (b0 b1 b2 b3 : Byte) : Word := (b3 ++ b2 ++ b1 ++ b0 : BitVec (8 + 8 + 8 + 8))

/-- A host read of one byte or of four bytes of a buffer. `byte i` is the byte at the access's offset plus i (R63). -/
def busWord (bytes : Nat) (byte : Nat → Byte) : Word :=
  if bytes = 1 then (byte 0).setWidth 32 else littleEndian (byte 0) (byte 1) (byte 2) (byte 3)

/-- Byte i of a host read of a buffer at offset off (R66). -/
def State.bufferByte (s : State) (src : Source) (off i : Nat) : Byte :=
  (s.buffer src).byteAt (off + i) (s.drawByte i)

/-- Byte i of a host read of OBUF, which is a draw while BUSY = 1 (R75). -/
def State.obufByte (s : State) (off i : Nat) : Byte :=
  if s.status.busy then s.drawByte i else s.bufferByte .obuf off i

/-- What an accepted host read returns: the stored value, or a draw where R75 says so. -/
def State.busValue (s : State) (r : Region) (off bytes : Nat) : Word :=
  match r with
  | .reg =>
    if s.status.busy && !exactWhileBusy (regAt off) then s.drawWord else s.readReg (regAt off)
  | .utab => if s.status.busy then s.drawWord else s.readUtab off
  | .ibuf => busWord bytes (s.bufferByte .ibuf off)
  | .obuf => busWord bytes (s.obufByte off)

/-- The draws one host read can use: one a byte. -/
def busDraws : Nat := 4

/-- A host read (R62, R64, R69, R75). -/
def hostRead (t : BusTarget) (bytes : Nat) (s : State) : Host.Outcome State Fault Refusal :=
  match checkAccess s.config t bytes with
  | .error f => .fault (.busFault f)
  | .ok (r, off) => .next ({ s with readData := some (s.busValue r off bytes) }.spend busDraws)

/-- The bytes a write of v stores, lowest offset first (R63). -/
def wordBytes (bytes : Nat) (v : Word) : List Byte :=
  (List.range bytes).map (fun i => v.extractLsb' (8 * i) 8)

/-- A host write to a register while BUSY = 0: CMD issues a command (R22), ARG0 and ARG1 are stored (R29), a write to any
other register or reserved offset is ignored (R21, R35). -/
def State.writeReg (s : State) (v : Word) : Reg → State
  | .cmd  => s.issue v
  | .arg0 => { s with arg0 := v }
  | .arg1 => { s with arg1 := v }
  | .status | .result | .unitCount | .lastSc | .outLen | .brBase | .brSize | .brByte | .brBit | .brSrc
  | .capIbuf | .capObuf | .capUtab | .reserved => s

/-- What an accepted host write does while BUSY = 0 (R61). A write to UTAB is ignored (R45). -/
def State.busStore (s : State) (r : Region) (off bytes : Nat) (v : Word) : State :=
  match r with
  | .reg  => s.writeReg v (regAt off)
  | .utab => s
  | .ibuf => { s with ibuf := s.ibuf.writeBytes off (wordBytes bytes v) }
  | .obuf => { s with obuf := s.obuf.writeBytes off (wordBytes bytes v) }

/-- A host write: a bus fault (R64), a protocol violation while BUSY = 1 (R270), or its effect. -/
def hostWrite (t : BusTarget) (bytes : Nat) (v : Word) (s : State) : Host.Outcome State Fault Refusal :=
  match checkAccess s.config t bytes with
  | .error f => .fault (.busFault f)
  | .ok (r, off) => if s.status.busy then .fault .hostWriteWhileBusy else .next (s.busStore r off bytes v)

end Sys2Proof.Machine
end

