-- ==== Sys2Proof/Machine/Turn.lean ====
section
/-! DEFINITION. Whose turn it is, and what one turn does: the engine's step on the latched command (R212), a host access,
a poll of the host's `wait` (R101), or reset (R260). -/

namespace Sys2Proof.Machine

/-- The engine's step, enabled when the latch is full (R212). With an empty latch ANFE is quiescent (R215). -/
def engineStep (s : State) : Host.Outcome State Fault Refusal :=
  match s.latch with
  | none => .next s
  | some w =>
    match decode w with
    | .error e => .next (s.complete 0 (.error e))
    | .ok i => exec i s

/-- Reset (R260): the state of R55, whatever the engine is doing. What is outside ANFE stays: what the host does next, and
what it last read. UTAB holds other values after it (R47), which `resets` names. -/
def resetStep (s : State) : State :=
  { State.resetWith s.config with
    inputs := s.inputs
    readData := s.readData
    stream := s.stream
    draws := s.draws
    resets := s.resets + 1 }

/-- One poll of `wait` (R101): the host reads STATUS; DONE = 1 ends the wait, and until then the engine runs (R281). -/
def waitStep (rest : List Input) (s : State) : Host.Outcome State Fault Refusal :=
  if s.status.done then .next { s with inputs := rest, readData := some (s.readReg .status) }
  else engineStep { s with readData := some (s.readReg .status) }

/-- One step: the next input acts, in the order the host issues its accesses (R71). With no input pending an enabled
engine step is taken (R281). -/
def takeTurn (s : State) : Host.Outcome State Fault Refusal :=
  match s.inputs with
  | [] => engineStep s
  | .engine :: rest => engineStep { s with inputs := rest }
  | .read t bytes :: rest => hostRead t bytes { s with inputs := rest }
  | .write t bytes v :: rest => hostWrite t bytes v { s with inputs := rest }
  | .wait :: rest => waitStep rest s
  | .reset :: rest => .next (resetStep { s with inputs := rest })

end Sys2Proof.Machine
end

