-- ==== Sys2Proof/Machine/Assembler.lean ====
section
/-! DEFINITION. The assembler of 30_encoding.md section 5: the lines of a host program, the host operations each one
assembles to (R100, R101), and the reading of a line's text. A program's operations are the `inputs` of a State. -/

namespace Sys2Proof.Machine

/-- A line of a host program: a command form of R100, or a pseudo-instruction or host operation of R101. -/
inductive AsmLine where
  | nop
  | scan (off len : Word)
  | strip (off len : Word)
  | brinit (src : Source) (base size : Word)
  | rdbit
  | rdbits (n : Nat)
  | rdue
  | rdse
  | wait
  | cmd (w : Word)
  | hdr
  | skip (n : Nat)
  | wr (r : Region) (a : Nat) (v : Word)
  | wrb (r : Region) (a : Nat) (bytes : List Byte)
  | rd (r : Region) (a : Nat)
  deriving DecidableEq, Repr

/-- A 32-bit host write to the register at an offset of REG. -/
def writeRegister (off : Nat) (v : Word) : Input := .write (.offset .reg off) 4 v

/-- `cmd w`: write w to CMD, then wait (R101). -/
def commandInputs (w : Word) : List Input := [writeRegister 0x00 w, .wait]

/-- A form with operands: write ARG0, then ARG1, then the word to CMD, then wait (R100). -/
def operandInputs (w arg0 arg1 : Word) : List Input :=
  writeRegister 0x08 arg0 :: writeRegister 0x0C arg1 :: commandInputs w

/-- `rdbits n`: an assembler rejects n > 32 (R100). -/
def rdbitsInputs (n : Nat) : Option (List Input) :=
  if (Instr.rdbits n).assembles then some (commandInputs (encode (.rdbits n))) else none

/-- Host 8-bit writes of bytes at rising offsets (R101). -/
def byteWrites (r : Region) : Nat → List Byte → List Input
  | _, [] => []
  | a, b :: bs => .write (.offset r a) 1 (b.setWidth 32) :: byteWrites r (a + 1) bs

/-- The host operations a line assembles to. None: the assembler rejects it (R100, R101). -/
def assemble : AsmLine → Option (List Input)
  | .nop                => some (commandInputs (encode .nop))
  | .scan off len       => some (operandInputs (encode .scan) off len)
  | .strip off len      => some (operandInputs (encode .strip) off len)
  | .brinit src b size  => some (operandInputs (encode (.brInit src)) b size)
  | .rdbit              => some (commandInputs (encode .rdbit))
  | .rdbits n           => rdbitsInputs n
  | .rdue               => some (commandInputs (encode .rdue))
  | .rdse               => some (commandInputs (encode .rdse))
  | .wait               => some [.wait]
  | .cmd w              => some (commandInputs w)
  | .hdr                => rdbitsInputs 8
  | .skip n             => rdbitsInputs n
  | .wr r a v           => some [.write (.offset r a) 4 v]
  | .wrb r a bytes      => if r = .ibuf ∨ r = .obuf then some (byteWrites r a bytes) else none
  | .rd r a             => some [.read (.offset r a) 4]

/-- A program: its lines' operations in order, so that each line has finished before the next begins (R100). -/
def assembleProgram : List AsmLine → Option (List Input)
  | [] => some []
  | l :: ls =>
    match assemble l, assembleProgram ls with
    | some xs, some ys => some (xs ++ ys)
    | _, _ => none

/-- The value of a digit, up to hexadecimal. -/
def digitValue (c : Char) : Option Nat :=
  if '0' ≤ c ∧ c ≤ '9' then some (c.toNat - '0'.toNat)
  else if 'a' ≤ c ∧ c ≤ 'f' then some (c.toNat - 'a'.toNat + 10)
  else if 'A' ≤ c ∧ c ≤ 'F' then some (c.toNat - 'A'.toNat + 10)
  else none

/-- Digits in a base, after the value read so far. -/
def parseDigits (base : Nat) : Nat → List Char → Option Nat
  | acc, [] => some acc
  | acc, c :: cs =>
    match digitValue c with
    | some d => if d < base then parseDigits base (base * acc + d) cs else none
    | none => none

/-- A number: decimal, `0x` hexadecimal or `0b` binary (R8). -/
def parseNumber : List Char → Option Nat
  | [] => none
  | '0' :: 'x' :: c :: cs => parseDigits 16 0 (c :: cs)
  | '0' :: 'b' :: c :: cs => parseDigits 2 0 (c :: cs)
  | cs => parseDigits 10 0 cs

/-- A 32-bit operand. DESIGN CHOICE (log 19): a number of 2^32 or more is rejected, not taken mod 2^32. -/
def parseWord (cs : List Char) : Option Word :=
  match parseNumber cs with
  | some v => if v < 2 ^ 32 then some (BitVec.ofNat 32 v) else none
  | none => none

/-- A byte of a byte sequence: a hexadecimal pair (R8). -/
def parseByte : List Char → Option Byte
  | [a, b] =>
    match parseDigits 16 0 [a, b] with
    | some v => some (BitVec.ofNat 8 v)
    | none => none
  | _ => none

/-- A byte sequence: pairs separated by spaces (R8). Runs of spaces separate like one. DESIGN CHOICE (log 19): no pair at all
is a sequence too, so `wrb X:a,` is a line, of no host operation. -/
def parseBytes : List (List Char) → Option (List Byte)
  | [] => some []
  | [] :: rest => parseBytes rest
  | f :: rest =>
    match parseByte f, parseBytes rest with
    | some b, some bs => some (b :: bs)
    | _, _ => none

/-- Split at a separator. -/
def splitAtChar (sep : Char) : List Char → List (List Char)
  | [] => [[]]
  | c :: cs =>
    if c = sep then [] :: splitAtChar sep cs
    else
      match splitAtChar sep cs with
      | f :: fs => (c :: f) :: fs
      | [] => [[c]]

/-- Without the spaces at both ends. -/
def trimSpaces (cs : List Char) : List Char :=
  ((cs.dropWhile (· == ' ')).reverse.dropWhile (· == ' ')).reverse

/-- The name of a region (R60). -/
def parseRegion (cs : List Char) : Option Region :=
  if cs = ['R', 'E', 'G'] then some .reg
  else if cs = ['U', 'T', 'A', 'B'] then some .utab
  else if cs = ['I', 'B', 'U', 'F'] then some .ibuf
  else if cs = ['O', 'B', 'U', 'F'] then some .obuf
  else none

/-- A place `X:a` (R101). -/
def parsePlace (cs : List Char) : Option (Region × Nat) :=
  match splitAtChar ':' cs with
  | [x, a] =>
    match parseRegion x, parseNumber a with
    | some r, some off => some (r, off)
    | _, _ => none
  | _ => none

/-- A line from its mnemonic and its operands, in the forms of R100 and R101. -/
def lineOf (mnemonic : List Char) (operands : List (List Char)) : Option AsmLine :=
  match operands with
  | [] =>
    if mnemonic = ['n', 'o', 'p'] then some .nop
    else if mnemonic = ['r', 'd', 'b', 'i', 't'] then some .rdbit
    else if mnemonic = ['r', 'd', 'u', 'e'] then some .rdue
    else if mnemonic = ['r', 'd', 's', 'e'] then some .rdse
    else if mnemonic = ['w', 'a', 'i', 't'] then some .wait
    else if mnemonic = ['h', 'd', 'r'] then some .hdr
    else none
  | [x] =>
    if mnemonic = ['r', 'd', 'b', 'i', 't', 's'] then (parseNumber x).map .rdbits
    else if mnemonic = ['s', 'k', 'i', 'p'] then (parseNumber x).map .skip
    else if mnemonic = ['c', 'm', 'd'] then (parseWord x).map .cmd
    else if mnemonic = ['r', 'd'] then (parsePlace x).map (fun p => .rd p.1 p.2)
    else none
  | [x, y] =>
    if mnemonic = ['s', 'c', 'a', 'n'] then
      (parseWord x).bind (fun off => (parseWord y).map (.scan off))
    else if mnemonic = ['s', 't', 'r', 'i', 'p'] then
      (parseWord x).bind (fun off => (parseWord y).map (.strip off))
    else if mnemonic = ['b', 'r', 'i', 'n', 'i', 't', '.', 'i', 'b', 'u', 'f'] then
      (parseWord x).bind (fun b => (parseWord y).map (.brinit .ibuf b))
    else if mnemonic = ['b', 'r', 'i', 'n', 'i', 't', '.', 'o', 'b', 'u', 'f'] then
      (parseWord x).bind (fun b => (parseWord y).map (.brinit .obuf b))
    else if mnemonic = ['w', 'r'] then
      (parsePlace x).bind (fun p => (parseWord y).map (.wr p.1 p.2))
    else if mnemonic = ['w', 'r', 'b'] then
      (parsePlace x).bind (fun p => (parseBytes (splitAtChar ' ' y)).map (.wrb p.1 p.2))
    else none
  | _ => none

/-- The line a text stands for (R100): `;` starts a comment, the mnemonic comes first, commas separate the operands. The
outer none: the text is no line of the assembler. The inner none: it is blank. -/
def parseLine (text : List Char) : Option (Option AsmLine) :=
  let code := trimSpaces (text.takeWhile (· != ';'))
  let rest := trimSpaces (code.dropWhile (· != ' '))
  if code = [] then some none
  else
    (lineOf (code.takeWhile (· != ' '))
      (if rest = [] then [] else (splitAtChar ',' rest).map trimSpaces)).map some

end Sys2Proof.Machine
end

