-- ==== Sys2Proof/Machine/Platform.lean ====
section
/-! DEFINITION. Several ANFE instances on one platform (R246): each has its own state at its own region bases, they share
none, and the host reaches one by the bus address. -/

namespace Sys2Proof.Machine

/-- The instances of a platform. No instance has an identifier of its own; the host tells them apart by their region
bases, which are in each one's config (R246). -/
structure Platform where
  units : List State
  deriving DecidableEq, Repr

/-- A platform right after reset, with an instance of each build (R260). -/
def Platform.reset (builds : List Config) : Platform where
  units := builds.map State.resetWith

/-- Instance k. It draws from stream k, so no two instances share a free value (R246, log 18). -/
def Platform.unit (p : Platform) (k : Nat) : Option State := p.units[k]?.map (fun s => { s with stream := k })

/-- No two regions of the platform overlap on the host bus: within an instance by R6, and between two instances so that
the host can tell them apart (R246, log 18). -/
def Platform.Valid (p : Platform) : Prop :=
  (∀ s ∈ p.units, s.config.Valid) ∧
  p.units.Pairwise (fun s s' => ∀ r r' : Region,
    s.config.base r + s.config.size r ≤ s'.config.base r' ∨ s'.config.base r' + s'.config.size r' ≤ s.config.base r)

/-- The instance that has a region at a bus address (R60, R246). -/
def Platform.route (p : Platform) (a : Nat) : Option Nat :=
  p.units.findIdx? (fun s => (resolve s.config (.address a)).isSome)

/-- Instance k takes a step, on what is given first and then on what is pending at it. The other instances stay. A number
that names no instance does nothing. -/
def Platform.stepOn (p : Platform) (k : Nat) (first : List Input) : Host.Outcome Platform Fault Refusal :=
  match p.unit k with
  | none => .next p
  | some s =>
    match Sys2Proof.Machine.step { s with inputs := first ++ s.inputs } with
    | .next t => .next { p with units := p.units.set k t }
    | .fault f => .fault f
    | .refused r => .refused r

/-- A host access at a bus address: it goes to the instance that has a region there, and outside all regions it is a bus
fault (R64, R246). -/
def Platform.access (p : Platform) (a : Nat) (x : Input) : Host.Outcome Platform Fault Refusal :=
  match p.route a with
  | none => .fault (.busFault .unmapped)
  | some k => p.stepOn k [x]

/-- What happens next on a platform. Commands of different instances may run at the same time (R246): their steps come in
any order. -/
inductive PlatformInput where
  /-- A host read at a bus address. -/
  | read (a bytes : Nat)
  /-- A host write at a bus address. -/
  | write (a bytes : Nat) (v : Word)
  /-- Instance k steps on what is pending at it: its engine's turn, its reset, or an operation that names it. -/
  | turn (k : Nat)
  deriving DecidableEq, Repr

/-- One step of a platform. -/
def Platform.step (p : Platform) : PlatformInput → Host.Outcome Platform Fault Refusal
  | .read a bytes    => p.access a (.read (.address a) bytes)
  | .write a bytes v => p.access a (.write (.address a) bytes v)
  | .turn k          => p.stepOn k []

end Sys2Proof.Machine
end

