-- ==== Sys2Proof/Safety.lean ====
section
/-! DEFINITION. What claims speak of: the invariants that hold in every state a run reaches, and a run without a fault. -/

namespace Sys2Proof.Machine

/-- The invariants of BR over a buffer of the given capacity (R40). -/
abbrev BitReader.wf (br : BitReader) (capacity : Nat) : Prop :=
  br.base.toNat + br.size.toNat ≤ capacity ∧ br.byte.toNat ≤ br.size.toNat ∧ (br.byte = br.size → br.bit = 0)

/-- HDR fits LEN: a zero-length unit has EMPTY = 1 and no byte, any other has its first byte and EMPTY = 0 (R46). -/
abbrev UnitEntry.wf (e : UnitEntry) : Prop :=
  (e.len = 0 ∧ e.hdr = 0x00000100) ∨ (e.len ≠ 0 ∧ e.hdr.toNat < 256)

/-- What the rules promise of every state between two steps. -/
structure State.Inv (s : State) : Prop where
  /-- The parameters meet R6. -/
  config        : s.config.Valid
  /-- IBUF is in canonical form and inside its capacity (R50). -/
  ibufWf        : s.ibuf.wf
  ibufBelow     : s.ibuf.below s.config.ibufBytes
  /-- OBUF is in canonical form and inside its capacity (R51). -/
  obufWf        : s.obuf.wf
  obufBelow     : s.obuf.below s.config.obufBytes
  /-- R40. -/
  reader        : s.br.wf (s.capacity s.br.src)
  /-- BUSY shows the latch (R52). -/
  busyIsLatched : s.status.busy = s.latch.isSome
  /-- BUSY = 1 and DONE = 1 never hold together (R23). -/
  notBoth       : ¬ (s.status.busy = true ∧ s.status.done = true)
  /-- ERR = 1 if and only if ERRCODE is not 0 (R23), and codes above 0x07 are never produced (R220). -/
  errIsCode     : s.status.err = true ↔ s.status.errCode ≠ 0
  errCodeRange  : s.status.errCode.toNat ≤ 7
  /-- ERR is clear while a command runs (R26). -/
  busyNoErr     : s.status.busy = true → s.status.err = false
  /-- SHORT = 1 implies NOSC = 1 (R166). -/
  shortIsNosc   : s.status.short = true → s.status.nosc = true
  /-- UTAB holds at most UTAB_DEPTH entries (R45), each with a header that fits it (R46). -/
  utabFits      : s.utab.length ≤ s.config.utabDepth
  utabHeaders   : ∀ e ∈ s.utab, e.wf
  /-- Entries 0 to UNIT_COUNT - 1 are written (R47), and UNIT_COUNT = 0 exactly when LAST_SC = NONE (R31). -/
  unitsWritten  : s.unitCount.toNat ≤ s.utab.length
  noUnits       : s.unitCount = 0 ↔ s.lastSc = noneWord
  /-- OUT_LEN is at most OBUF_BYTES (R190). -/
  outLenFits    : s.outLen.toNat ≤ s.config.obufBytes

/-- The next step is no fault of the host: the premise R229 asks claims about a program to take. -/
def State.HostSafe (s : State) : Prop := ∀ f, step s ≠ .fault f

end Sys2Proof.Machine
end

