-- ==== Sys2Proof/Certificates/Slice0/Obligations.lean ====
section
/-! DEFINITION. The statements for the provers. The definitions under Sys2Proof.Claims say in the spec's own terms what a
completion leaves, what an exp-Golomb code is, and what a scan finds; they call no meaning of the model. A free value
(log 3) stands in a statement only as the model's read of a byte with its draw, so each holds whatever it is; the number
of draws a command uses up is the model's own and every statement leaves it open (`∃ d`). -/

namespace Sys2Proof.Claims

open Sys2Proof.Machine

/-- A successful completion (R212): STATUS shows DONE and no error, the latch is empty. -/
def completed (s : State) (d : Nat) : State :=
  { s with
    latch := none
    draws := d
    status := { s.status with busy := false, done := true, err := false, errCode := 0 } }

/-- A failed completion with a code (R224): STATUS shows DONE, ERR and the code, the latch is empty, nothing else changes. -/
def failed (s : State) (code : Byte) (d : Nat) : State :=
  { s with
    latch := none
    draws := d
    status := { s.status with busy := false, done := true, err := true, errCode := code } }

/-- A failed completion with a data error (R224): the BitReader is FAILED as well. -/
def dataFailed (s : State) (code : Byte) (d : Nat) : State :=
  { failed s code d with br := { s.br with state := .failed } }

/-- The state just after the CMD write of w (R211). -/
def issued (s : State) (w : Word) : State :=
  { s with latch := some w, status := { s.status with busy := true, done := false, err := false, errCode := 0 } }

/-- The engine acts next, and `rest` is what is pending after it. -/
def engineNext (s : State) (rest : List Input) : Prop :=
  s.inputs = .engine :: rest ∨ (s.inputs = [] ∧ rest = [])

/-- R94, on the word as a number: a reserved OP, a reserved bit, a stray N, or a stray SRC. -/
def illegalWord (w : Word) : Prop :=
  7 < w.toNat % 256 ∨ w.toNat / 2 ^ 14 % 4 ≠ 0 ∨ w.toNat / 2 ^ 17 ≠ 0 ∨
    (w.toNat / 2 ^ 8 % 64 ≠ 0 ∧ w.toNat % 256 ≠ 5) ∨ (w.toNat / 2 ^ 16 % 2 ≠ 0 ∧ w.toNat % 256 ≠ 3)

/-- The read commands (R120). -/
def isRead : Instr → Bool
  | .rdbit | .rdbits _ | .rdue | .rdse => true
  | .nop | .scan | .strip | .brInit _ => false

/-- The bits from the cursor on are an exp-Golomb code with k leading zeros and codeNum c, inside the slice (R124). -/
def UeCode (s : State) (k c : Nat) : Prop :=
  k ≤ 31 ∧ 2 * k + 1 ≤ s.br.remaining ∧ (∀ j, j < k → s.streamBit j = false) ∧ s.streamBit k = true ∧
    ∃ v, v < 2 ^ k ∧ (∀ j, j < k → v.testBit (k - 1 - j) = s.streamBit (k + 1 + j)) ∧ c = 2 ^ k - 1 + v

/-- The bits from the cursor on are no code, and the error that reports it (R124): Truncated, Overflow, UnexpectedEnd. -/
def UeError (s : State) (code : Byte) : Prop :=
  (code = 0x05 ∧ s.br.remaining ≤ 31 ∧ ∀ j, j < s.br.remaining → s.streamBit j = false) ∨
  (code = 0x06 ∧ 32 ≤ s.br.remaining ∧ ∀ j, j < 32 → s.streamBit j = false) ∨
  (code = 0x04 ∧ ∃ k, k ≤ 31 ∧ k < s.br.remaining ∧ s.br.remaining < 2 * k + 1 ∧
    (∀ j, j < k → s.streamBit j = false) ∧ s.streamBit k = true)

/-- `enc(m)` (95_test_vectors.md): k zeros, a 1, then m + 1 - 2^k in k bits, the most significant first. -/
def encodeUe (m : Nat) : List Bool :=
  List.replicate (Nat.log2 (m + 1)) false ++
    true :: (List.range (Nat.log2 (m + 1))).map
      (fun j => (m + 1 - 2 ^ Nat.log2 (m + 1)).testBit (Nat.log2 (m + 1) - 1 - j))

/-- `senc(v)` (95_test_vectors.md): enc(2v - 1) if v > 0, else enc(-2v). -/
def encodeSe (v : Int) : List Bool :=
  encodeUe (if 0 < v then 2 * v - 1 else -2 * v).toNat

/-- The bits from the cursor on start with these, inside the slice. -/
def Holds (s : State) (bits : List Bool) : Prop :=
  bits.length ≤ s.br.remaining ∧ ∀ j, j < bits.length → bits[j]? = some (s.streamBit j)

/-- The signed value of a codeNum (R125). -/
def seOf (c : Nat) : Int := if c % 2 = 1 then ((c : Int) + 1) / 2 else -((c : Int) / 2)

/-- The scan's loop of R160 as a relation: from position i it finds the start codes S, as (index, length) pairs. B i d is
the byte at i + d as the probe of position i reads it. -/
inductive ScanRun (B : Nat → Nat → Byte) (margin len : Nat) : Nat → List (Nat × Nat) → Prop where
  | stop (i : Nat) (h : len < i + margin) : ScanRun B margin len i []
  | three (i : Nat) (S : List (Nat × Nat)) (h : i + margin ≤ len)
      (p : B i 0 = 0x00 ∧ B i 1 = 0x00 ∧ B i 2 = 0x01) (r : ScanRun B margin len (i + 3) S) :
      ScanRun B margin len i ((i, 3) :: S)
  | four (i : Nat) (S : List (Nat × Nat)) (h : i + margin ≤ len)
      (p : B i 0 = 0x00 ∧ B i 1 = 0x00 ∧ B i 2 = 0x00 ∧ B i 3 = 0x01) (r : ScanRun B margin len (i + 4) S) :
      ScanRun B margin len i ((i, 4) :: S)
  | miss (i : Nat) (S : List (Nat × Nat)) (h : i + margin ≤ len)
      (p3 : ¬ (B i 0 = 0x00 ∧ B i 1 = 0x00 ∧ B i 2 = 0x01))
      (p4 : ¬ (B i 0 = 0x00 ∧ B i 1 = 0x00 ∧ B i 2 = 0x00 ∧ B i 3 = 0x01))
      (r : ScanRun B margin len (i + 1) S) : ScanRun B margin len i S

/-- Where unit j of the start codes S begins (R162). -/
def unitBegin (S : List (Nat × Nat)) (j : Nat) : Nat := (S[j]?.getD (0, 0)).1 + (S[j]?.getD (0, 0)).2

/-- Where unit j of the start codes S ends: at the next start code, or at len (R162). -/
def unitStop (S : List (Nat × Nat)) (len j : Nat) : Nat := (S[j + 1]?.map Prod.fst).getD len

/-- Every byte of the IBUF range of ARG0 and ARG1 has been written since reset. -/
def rangeWritten (s : State) : Prop := ∀ j, j < s.argLen → (s.ibuf.lookup (s.argOff + j)).isSome = true

/-- Every byte of the BitReader's slice has been written since reset. -/
def sliceWritten (s : State) : Prop :=
  ∀ j, j < s.br.size.toNat → ((s.buffer s.br.src).lookup (s.br.base.toNat + j)).isSome = true

/-- `epb(i)` of R190, on the bytes of the range as index i reads them (log 7). -/
def emulationByteAt (s : State) (i : Nat) : Prop :=
  s.rangeByte (5 * i) i = 0x03 ∧ 2 ≤ i ∧ s.rangeByte (5 * i + 1) (i - 2) = 0x00 ∧
    s.rangeByte (5 * i + 2) (i - 1) = 0x00 ∧
    (i = s.argLen - 1 ∨ (s.rangeByte (5 * i + 3) (i + 1)).toNat ≤ 0x03)

/-- The region of a buffer. -/
def bufferRegion : Source → Region
  | .ibuf => .ibuf
  | .obuf => .obuf

/-- A host access that R62 and R64 accept: it goes to offset off of region r. -/
def Access (c : Config) (t : BusTarget) (bytes : Nat) (r : Region) (off : Nat) : Prop :=
  (t = .offset r off ∨ (t = .address (c.base r + off) ∧ off < c.size r)) ∧
    off + bytes ≤ c.size r ∧
    ((bytes = 4 ∧ off % 4 = 0) ∨ (bytes = 1 ∧ (r = .ibuf ∨ r = .obuf)))

/-- k steps. -/
def steps : Nat → State → Host.Outcome State Fault Refusal
  | 0, s => .next s
  | k + 1, s =>
    match step s with
    | .next t => steps k t
    | .fault f => .fault f
    | .refused r => .refused r

/-- The command of an assembler line, with the operands it puts in ARG0 and ARG1 (R100, R101). -/
def lineCommand : AsmLine → Option (Instr × Option (Word × Word))
  | .nop => some (.nop, none)
  | .scan off len => some (.scan, some (off, len))
  | .strip off len => some (.strip, some (off, len))
  | .brinit src b size => some (.brInit src, some (b, size))
  | .rdbit => some (.rdbit, none)
  | .rdbits n => some (.rdbits n, none)
  | .rdue => some (.rdue, none)
  | .rdse => some (.rdse, none)
  | .hdr => some (.rdbits 8, none)
  | .skip n => some (.rdbits n, none)
  | .wait | .cmd _ | .wr _ _ _ | .wrb _ _ _ | .rd _ _ => none

end Sys2Proof.Claims

open Sys2Proof Sys2Proof.Machine Sys2Proof.Claims

/-! ### Encoding -/

/-- Words written out from R96 decode to their commands. A sanity statement. -/
def Obligations.OpcodeMapWordsDecode : Prop :=
  parse 0x00000000 = some .nop ∧ parse 0x00000001 = some .scan ∧ parse 0x00000002 = some .strip ∧
    parse 0x00000003 = some (.brInit .ibuf) ∧ parse 0x00010003 = some (.brInit .obuf) ∧
    parse 0x00000004 = some .rdbit ∧ parse 0x00002005 = some (.rdbits 32) ∧ parse 0x00000006 = some .rdue ∧
    parse 0x00000007 = some .rdse ∧ parse 0x00000008 = none ∧ parse 0x00004005 = none ∧ parse 0x00012105 = none

/-- R97: decode, on the word as a number, in the order of its checks; and a word that fails one changes nothing but
STATUS. -/
def Obligations.DecodeFollowsR97 : Prop :=
  (∀ w : Word, decode w =
    if w.toNat / 2 ^ 14 % 4 ≠ 0 ∨ w.toNat / 2 ^ 17 ≠ 0 then .error .illegalCommand
    else if 7 < w.toNat % 256 then .error .illegalCommand
    else if w.toNat / 2 ^ 8 % 64 ≠ 0 ∧ w.toNat % 256 ≠ 5 then .error .illegalCommand
    else if w.toNat / 2 ^ 16 % 2 ≠ 0 ∧ w.toNat % 256 ≠ 3 then .error .illegalCommand
    else if w.toNat % 256 = 5 ∧ 32 < w.toNat / 2 ^ 8 % 64 then .error .operandRange
    else .ok
      (match w.toNat % 256 with
       | 0 => .nop
       | 1 => .scan
       | 2 => .strip
       | 3 => .brInit (if w.toNat / 2 ^ 16 % 2 = 0 then .ibuf else .obuf)
       | 4 => .rdbit
       | 5 => .rdbits (w.toNat / 2 ^ 8 % 64)
       | 6 => .rdue
       | _ => .rdse)) ∧
  (∀ (s : State) (rest : List Input) (w : Word) (e : ErrorCode), engineNext s rest → s.latch = some w →
    decode w = .error e →
    ∃ d, step s = .next (failed { s with inputs := rest } (if e = .operandRange then 0x02 else 0x01) d))

/-- R96: a word selects a command exactly when its row's mask and match say so, with the fields of the pattern; the rows do
not overlap, and a word that matches no row is illegal. -/
def Obligations.WordSelectsItsRow : Prop :=
  (∀ (w : Word) (i : Instr), parse w = some i ↔
    (w &&& 0xFFFFFFFF = 0x00000000 ∧ i = .nop) ∨ (w &&& 0xFFFFFFFF = 0x00000001 ∧ i = .scan) ∨
    (w &&& 0xFFFFFFFF = 0x00000002 ∧ i = .strip) ∨
    (w &&& 0xFFFEFFFF = 0x00000003 ∧ i = .brInit (if w.getLsbD 16 then .obuf else .ibuf)) ∨
    (w &&& 0xFFFFFFFF = 0x00000004 ∧ i = .rdbit) ∨
    (w &&& 0xFFFFC0FF = 0x00000005 ∧ i = .rdbits (w.extractLsb' 8 6).toNat) ∨
    (w &&& 0xFFFFFFFF = 0x00000006 ∧ i = .rdue) ∨ (w &&& 0xFFFFFFFF = 0x00000007 ∧ i = .rdse)) ∧
  (∀ (w : Word) (r r' : OpcodeRow), r ∈ opcodeMap → r' ∈ opcodeMap →
    w &&& r.mask = r.matchWord → w &&& r'.mask = r'.matchWord → r = r') ∧
  (∀ w : Word, (∀ r ∈ opcodeMap, w &&& r.mask ≠ r.matchWord) → decode w = .error .illegalCommand)

/-- Decode and encode agree, for every command and every operand its field admits. -/
def Obligations.EncodeThenParseIsIdentity : Prop :=
  ∀ i : Instr, i.wf = true → parse (encode i) = some i

/-- The other direction: each legal word is the word of the command it decodes to, which is well-formed. -/
def Obligations.ParseThenEncodeIsIdentity : Prop :=
  ∀ (w : Word) (i : Instr), parse w = some i → i.wf = true ∧ encode i = w

/-! ### Issue, completion and errors -/

/-- A step runs the command that the latched word decodes to; and so it does on the word that withFetchWord places. The model's
choices in it: withFetchWord stands for the CMD write with the engine next (log 6), and a word of RDBITS with N from 33 to 63
decodes to its command, which raises the error (log 8). -/
def Obligations.StepRunsLatchedCommand : Prop :=
  (∀ (s : State) (rest : List Input) (w : Word) (i : Instr), engineNext s rest → s.latch = some w →
    parse w = some i → step s = exec i { s with inputs := rest }) ∧
  (∀ (s : State) (w : Word) (i : Instr), parse w = some i →
    step (s.withFetchWord 32 w.toNat) = exec i (issued s w))

/-- R94: an illegal word raises IllegalCommand and has no other effect. -/
def Obligations.IllegalWordChangesOnlyStatus : Prop :=
  ∀ (s : State) (rest : List Input) (w : Word), engineNext s rest → s.latch = some w → illegalWord w →
    ∃ d, step s = .next (failed { s with inputs := rest } 0x01 d)

/-- R211: a host write of w to CMD while BUSY = 0 latches it and writes STATUS, and does nothing else; while BUSY = 1 it issues
no command. The write may name the register by its offset or by its bus address. -/
def Obligations.CmdWriteIssues : Prop :=
  ∀ (s : State) (t : BusTarget) (w : Word) (rest : List Input),
    t = .offset .reg 0x00 ∨ t = .address s.config.baseReg →
    s.inputs = .write t 4 w :: rest →
    (s.status.busy = false → step s = .next { s with
      inputs := rest
      latch := some w
      status := { s.status with busy := true, done := false, err := false, errCode := 0x00 } }) ∧
    (s.status.busy = true → step s = .fault .hostWriteWhileBusy)

/-- Every command completes (R214, R212): with DONE, without BUSY, with an empty latch, and with ERR = 1 exactly when
ERRCODE is not 0, a code of R220. -/
def Obligations.EveryCommandCompletes : Prop :=
  ∀ (i : Instr) (s : State), ∃ t, exec i s = .next t ∧ t.latch = none ∧ t.status.busy = false ∧
    t.status.done = true ∧ (t.status.err = true ↔ t.status.errCode ≠ 0x00) ∧ t.status.errCode.toNat ≤ 0x07

/-- R210: NOP completes with success and leaves everything else, through the step that runs its word; another word with
OP = 0x00 is illegal, and no NOP. -/
def Obligations.NopCompletes : Prop :=
  parse 0x00000000 = some .nop ∧
  (∀ w : Word, w.toNat % 256 = 0 → w ≠ 0x00000000 → decode w = .error .illegalCommand) ∧
  (∀ s : State, ∃ d, exec .nop s = .next (completed s d)) ∧
  (∀ (s : State) (rest : List Input), engineNext s rest → s.latch = some 0x00000000 →
    ∃ d, step s = .next (completed { s with inputs := rest } d))

/-- R224: a command that fails changes STATUS, empties the latch, for a data error puts the BitReader in FAILED, and
changes nothing else. First for a latched word, legal or not, then for a command. -/
def Obligations.FailureIsPrecise : Prop :=
  (∀ (s t : State) (rest : List Input) (w : Word), engineNext s rest → s.latch = some w → step s = .next t →
    t.status.err = true →
    (t.status.errCode = 0x04 ∨ t.status.errCode = 0x05 ∨ t.status.errCode = 0x06 →
      t = dataFailed { s with inputs := rest } t.status.errCode t.draws) ∧
    (¬ (t.status.errCode = 0x04 ∨ t.status.errCode = 0x05 ∨ t.status.errCode = 0x06) →
      t = failed { s with inputs := rest } t.status.errCode t.draws)) ∧
  (∀ (i : Instr) (s t : State), exec i s = .next t → t.status.err = true →
    (t.status.errCode = 0x04 ∨ t.status.errCode = 0x05 ∨ t.status.errCode = 0x06 →
      t = dataFailed s t.status.errCode t.draws) ∧
    (¬ (t.status.errCode = 0x04 ∨ t.status.errCode = 0x05 ∨ t.status.errCode = 0x06) →
      t = failed s t.status.errCode t.draws))

/-- The footprints of the commands: none writes ARG0, ARG1, IBUF or the parameters; only the reads write RESULT; only SCAN
writes UTAB, UNIT_COUNT, LAST_SC, SHORT and NOSC; only STRIP writes OBUF and OUT_LEN; NOP, SCAN and STRIP leave BR, and
the reads leave its slice. -/
def Obligations.CommandFootprints : Prop :=
  ∀ (i : Instr) (s t : State), exec i s = .next t →
    (t.config = s.config ∧ t.arg0 = s.arg0 ∧ t.arg1 = s.arg1 ∧ t.ibuf = s.ibuf ∧ t.inputs = s.inputs ∧
      t.readData = s.readData) ∧
    (isRead i = false ∨ t.status.err = true → t.result = s.result) ∧
    (i ≠ .scan ∨ t.status.err = true → t.utab = s.utab ∧ t.unitCount = s.unitCount ∧ t.lastSc = s.lastSc ∧
      t.status.short = s.status.short ∧ t.status.nosc = s.status.nosc) ∧
    (i ≠ .strip ∨ t.status.err = true → t.obuf = s.obuf ∧ t.outLen = s.outLen) ∧
    (i = .nop ∨ i = .scan ∨ i = .strip → t.br = s.br) ∧
    (isRead i = true → t.br.base = s.br.base ∧ t.br.size = s.br.size ∧ t.br.src = s.br.src)

/-- R28: only BR_INIT, to READY, and a failed read, to FAILED, change the BitReader's state. -/
def Obligations.ReaderStateChanges : Prop :=
  ∀ (i : Instr) (s t : State), exec i s = .next t → t.br.state ≠ s.br.state →
    ((∃ src, i = .brInit src) ∧ t.br.state = .ready ∧ t.status.err = false) ∨
    (isRead i = true ∧ s.br.state = .ready ∧ t.br.state = .failed ∧ t.status.err = true ∧
      (t.status.errCode = 0x04 ∨ t.status.errCode = 0x05 ∨ t.status.errCode = 0x06))

/-- R225, R276: a FAILED reader stays FAILED through every command but a successful BR_INIT, and every read in FAILED
raises ReaderNotReady and keeps the slice and the cursor. -/
def Obligations.FailedReaderNeedsBrInit : Prop :=
  (∀ (i : Instr) (s t : State), s.br.state = .failed → exec i s = .next t →
    t.br = s.br ∨ ((∃ src, i = .brInit src) ∧ t.br.state = .ready)) ∧
  (∀ (i : Instr) (s : State), s.br.state = .failed → isRead i = true → (∀ n, i = .rdbits n → n ≤ 32) →
    ∃ d, exec i s = .next (failed s 0x03 d))

/-! ### BitReader -/

/-- R42: `remaining()`, when it is 0, `next_bit()` on a written byte, and `advance()`, under the invariants of R40. -/
def Obligations.CursorPrimitives : Prop :=
  ∀ s : State, s.br.wf (s.capacity s.br.src) →
    ((s.br.remaining : Int) = 8 * ((s.br.size.toNat : Int) - s.br.byte.toNat) - s.br.bit.toNat) ∧
    (s.br.remaining = 0 ↔ s.br.byte = s.br.size) ∧
    (∀ b, (s.buffer s.br.src).lookup (s.br.base.toNat + s.br.byte.toNat) = some b →
      s.streamBit 0 = b.getLsbD (7 - s.br.bit.toNat)) ∧
    (s.br.bit.toNat + 1 ≠ 8 → s.br.advance.bit.toNat = s.br.bit.toNat + 1 ∧ s.br.advance.byte = s.br.byte) ∧
    (s.br.bit.toNat + 1 = 8 → s.br.advance.bit = 0 ∧ s.br.advance.byte = s.br.byte + 1) ∧
    (1 ≤ s.br.remaining → s.br.advance.consumed = s.br.consumed + 1 ∧ s.br.advance.remaining + 1 = s.br.remaining ∧
      s.br.advance.wf (s.capacity s.br.src))

/-- R9: on a slice whose bytes are written, the t-th bit from the cursor is stream bit `8 * byte + bit + t` of the slice:
bit `7 - (j mod 8)` of its byte `j div 8`. -/
def Obligations.StreamBitOrder : Prop :=
  ∀ (s : State) (t : Nat) (b : Byte),
    (s.buffer s.br.src).lookup
      (s.br.base.toNat + (8 * s.br.byte.toNat + s.br.bit.toNat + t) / 8) = some b →
    s.streamBit t = b.getLsbD (7 - (8 * s.br.byte.toNat + s.br.bit.toNat + t) % 8)

/-- R121: BR_INIT, its words, its error, and the reader it makes, in every state of the reader. -/
def Obligations.BrInitPointsReader : Prop :=
  (parse 0x00000003 = some (.brInit .ibuf) ∧ parse 0x00010003 = some (.brInit .obuf)) ∧
  ∀ (s : State) (src : Source) (cap : Nat),
    cap = (match src with | .ibuf => s.config.ibufBytes | .obuf => s.config.obufBytes) →
    (cap < s.arg0.toNat + s.arg1.toNat → ∃ d, exec (.brInit src) s = .next (failed s 0x02 d)) ∧
    (s.arg0.toNat + s.arg1.toNat ≤ cap → ∃ d, exec (.brInit src) s = .next (completed { s with
      br := { base := s.arg0, size := s.arg1, byte := 0, bit := 0, src := src, state := .ready } } d))

/-- R122: RDBIT. -/
def Obligations.RdbitReadsOneBit : Prop :=
  parse 0x00000004 = some .rdbit ∧
  ∀ s : State,
    (s.br.state ≠ .ready → ∃ d, exec .rdbit s = .next (failed s 0x03 d)) ∧
    (s.br.state = .ready → s.br.remaining < 1 → ∃ d, exec .rdbit s = .next (dataFailed s 0x04 d)) ∧
    (s.br.state = .ready → 1 ≤ s.br.remaining → ∃ d, exec .rdbit s = .next (completed { s with
      result := if s.streamBit 0 then 1 else 0
      br := s.br.advance } d))

/-- R123: RDBITS. The result's bit n - 1 - j is the j-th bit read, and the cursor has advanced n times. -/
def Obligations.RdbitsReadsField : Prop :=
  (∀ n, n < 64 → parse (0x00000005 ||| (BitVec.ofNat 32 n <<< 8)) = some (.rdbits n)) ∧
  ∀ (s : State) (n : Nat),
    (32 < n → ∃ d, exec (.rdbits n) s = .next (failed s 0x02 d)) ∧
    (n ≤ 32 → s.br.state ≠ .ready → ∃ d, exec (.rdbits n) s = .next (failed s 0x03 d)) ∧
    (n ≤ 32 → s.br.state = .ready → s.br.remaining < n →
      ∃ d, exec (.rdbits n) s = .next (dataFailed s 0x04 d)) ∧
    (n ≤ 32 → s.br.state = .ready → n ≤ s.br.remaining →
      ∃ r d, exec (.rdbits n) s = .next (completed { s with
          result := r
          br := BitReader.advance^[n] s.br } d) ∧
        r.toNat < 2 ^ n ∧ ∀ j, j < n → r.getLsbD (n - 1 - j) = s.streamBit j)

/-- R124: RDUE, on every bit string: a code gives its codeNum, and anything else the error of the first fault met. -/
def Obligations.RdueDecodesCode : Prop :=
  parse 0x00000006 = some .rdue ∧
  ∀ s : State,
    (s.br.state ≠ .ready → ∃ d, exec .rdue s = .next (failed s 0x03 d)) ∧
    (s.br.state = .ready → ∀ k c, UeCode s k c → ∃ d, exec .rdue s = .next (completed { s with
      result := BitVec.ofNat 32 c
      br := BitReader.advance^[2 * k + 1] s.br } d)) ∧
    (s.br.state = .ready → ∀ code, UeError s code → ∃ d, exec .rdue s = .next (dataFailed s code d)) ∧
    ((∃ k c, UeCode s k c) ∨ ∃ code, UeError s code)

/-- R125: RDSE, with the errors of RDUE, and the signed value of the codeNum in two's complement. -/
def Obligations.RdseDecodesSignedCode : Prop :=
  parse 0x00000007 = some .rdse ∧
  ∀ s : State,
    (s.br.state ≠ .ready → ∃ d, exec .rdse s = .next (failed s 0x03 d)) ∧
    (s.br.state = .ready → ∀ k c, UeCode s k c → ∃ d, exec .rdse s = .next (completed { s with
      result := BitVec.ofInt 32 (seOf c)
      br := BitReader.advance^[2 * k + 1] s.br } d)) ∧
    (s.br.state = .ready → ∀ code, UeError s code → ∃ d, exec .rdse s = .next (dataFailed s code d))

/-- R126: each codeNum up to 2^32 - 2 has a code, and RDUE reads it back. -/
def Obligations.UeRoundTrip : Prop :=
  ∀ (s : State) (m : Nat), s.br.state = .ready → m ≤ 2 ^ 32 - 2 → Holds s (encodeUe m) →
    ∃ d, exec .rdue s = .next (completed { s with
      result := BitVec.ofNat 32 m
      br := BitReader.advance^[2 * Nat.log2 (m + 1) + 1] s.br } d)

/-- R126: and only that code: what RDUE accepts is the code of the value it returns, which is at most 2^32 - 2. -/
def Obligations.UeAcceptsOnlyItsCode : Prop :=
  ∀ s t : State, exec .rdue s = .next t → t.status.err = false →
    t.result.toNat ≤ 2 ^ 32 - 2 ∧ Holds s (encodeUe t.result.toNat)

/-- R126: each signed value from -(2^31 - 1) to 2^31 - 1 round-trips through RDSE. -/
def Obligations.SeRoundTrip : Prop :=
  ∀ (s : State) (v : Int), s.br.state = .ready → -(2 ^ 31 - 1) ≤ v → v ≤ 2 ^ 31 - 1 → Holds s (encodeSe v) →
    ∃ t, exec .rdse s = .next t ∧ t.status.err = false ∧ t.result = BitVec.ofInt 32 v ∧ t.result.toInt = v

/-- R126: the range of each read's result. RDSE never gives -2^31. -/
def Obligations.ReadResultsInRange : Prop :=
  ∀ s t : State, t.status.err = false →
    (exec .rdbit s = .next t → t.result.toNat ≤ 1) ∧
    (∀ n, exec (.rdbits n) s = .next t → n ≤ 32 ∧ t.result.toNat ≤ 2 ^ n - 1) ∧
    (exec .rdue s = .next t → t.result.toNat ≤ 2 ^ 32 - 2) ∧
    (exec .rdse s = .next t → -(2 ^ 31 - 1) ≤ t.result.toInt ∧ t.result.toInt ≤ 2 ^ 31 - 1)

/-- R127: a successful read keeps the invariants of R40 and consumes exactly its bits. -/
def Obligations.ReadsConsumeExactly : Prop :=
  ∀ (i : Instr) (s t : State), isRead i = true → s.br.wf (s.capacity s.br.src) → exec i s = .next t →
    t.status.err = false →
    t.br.wf (t.capacity t.br.src) ∧
    (i = .rdbit → t.br.consumed = s.br.consumed + 1) ∧
    (∀ n, i = .rdbits n → t.br.consumed = s.br.consumed + n) ∧
    (i = .rdue ∨ i = .rdse → ∃ k c, UeCode s k c ∧ t.br.consumed = s.br.consumed + (2 * k + 1))

/-- R123: `read_bits(n + 1)` composes `read_bits(n)` and one `read_bit`, the first bits the most significant. The slice is
written: an unwritten byte may read differently each time (R66). -/
def Obligations.RdbitsComposesRdbit : Prop :=
  ∀ (s : State) (n : Nat), s.br.state = .ready → s.br.wf (s.capacity s.br.src) → sliceWritten s → n < 32 →
    n + 1 ≤ s.br.remaining →
    ∃ t1 t2 t3, exec (.rdbits n) s = .next t1 ∧ exec .rdbit t1 = .next t2 ∧ exec (.rdbits (n + 1)) s = .next t3 ∧
      t3.br = t2.br ∧ t3.result.toNat = 2 * t1.result.toNat + t2.result.toNat

/-- R129: a read never uses a bit from outside the slice: two states with the same reader and the same slice read alike,
whatever else differs. (The same draws of the same stream, for bytes that are not written.) -/
def Obligations.ReadsStayInsideSlice : Prop :=
  ∀ (i : Instr) (s s' t t' : State), isRead i = true → s.br = s'.br → s.stream = s'.stream → s.draws = s'.draws →
    (∀ j, j < s.br.size.toNat →
      (s.buffer s.br.src).lookup (s.br.base.toNat + j) = (s'.buffer s.br.src).lookup (s.br.base.toNat + j)) →
    exec i s = .next t → exec i s' = .next t' →
    t.br = t'.br ∧ t.status.err = t'.status.err ∧ t.status.errCode = t'.status.errCode ∧
      (t.status.err = false → t.result = t'.result)

/-! ### SCAN -/

/-- R160: SCAN, whole: its two errors, and on success the table, UNIT_COUNT, LAST_SC, SHORT and NOSC of the start codes
that the scan's loop finds. Nothing else changes. That the two patterns of a probe test the same four reads is the model's
reading (log 7). -/
def Obligations.ScanSlicesRange : Prop :=
  parse 0x00000001 = some .scan ∧
  ∀ s : State,
    (s.config.ibufBytes < s.arg0.toNat + s.arg1.toNat → ∃ d, exec .scan s = .next (failed s 0x02 d)) ∧
    (s.arg0.toNat + s.arg1.toNat ≤ s.config.ibufBytes →
      (∃ S, ScanRun (fun i d => s.rangeByte (4 * i + d) (i + d)) s.config.scanMargin s.arg1.toNat 0 S) ∧
      ∀ S, ScanRun (fun i d => s.rangeByte (4 * i + d) (i + d)) s.config.scanMargin s.arg1.toNat 0 S →
        (s.config.utabDepth < S.length → ∃ d, exec .scan s = .next (failed s 0x07 d)) ∧
        (S.length ≤ s.config.utabDepth →
          ∃ u d, exec .scan s = .next (completed { s with
              utab := u
              unitCount := BitVec.ofNat 32 S.length
              lastSc := if S = [] then 0xFFFFFFFF else BitVec.ofNat 32 (S.getLast?.getD (0, 0)).1
              status := { s.status with
                short := decide (s.arg1.toNat < s.config.scanMargin)
                nosc := decide (S = []) } } d) ∧
            (∀ j, j < S.length → u[j]? = some {
              dataOff := BitVec.ofNat 32 (unitBegin S j)
              len := BitVec.ofNat 32 (unitStop S s.arg1.toNat j - unitBegin S j)
              hdr := if 1 ≤ unitStop S s.arg1.toNat j - unitBegin S j then
                  (s.rangeByte (4 * s.arg1.toNat + j) (unitBegin S j)).setWidth 32
                else 0x00000100 }) ∧
            (∀ j, S.length ≤ j → u[j]? = s.utab[j]?)))

/-- R162: the units of a successful SCAN are in stream order and do not overlap, a start code lies between two of them, and
the last one ends at the end of the range. -/
def Obligations.ScanUnitsTileRange : Prop :=
  ∀ s t : State, s.config.Valid → exec .scan s = .next t → t.status.err = false →
    (∀ j, j + 1 < t.unitCount.toNat → ∃ a b, t.utab[j]? = some a ∧ t.utab[j + 1]? = some b ∧
      a.dataOff.toNat + a.len.toNat + 3 ≤ b.dataOff.toNat ∧
      b.dataOff.toNat ≤ a.dataOff.toNat + a.len.toNat + 4) ∧
    (∀ j, j + 1 = t.unitCount.toNat → ∃ a, t.utab[j]? = some a ∧ a.dataOff.toNat + a.len.toNat = s.arg1.toNat)

/-- R166: what a successful SCAN says in SHORT, NOSC, UNIT_COUNT and LAST_SC, and that a short range is no error (C1). -/
def Obligations.ScanInformationBits : Prop :=
  (∀ s t : State, s.config.Valid → exec .scan s = .next t → t.status.err = false →
    (t.status.short = true ↔ s.arg1.toNat < s.config.scanMargin) ∧
    (t.status.nosc = true ↔ t.unitCount = 0) ∧ (t.unitCount = 0 ↔ t.lastSc = 0xFFFFFFFF) ∧
    (t.status.short = true → t.status.nosc = true) ∧ t.unitCount.toNat ≤ s.config.utabDepth ∧
    t.status.errCode = 0x00) ∧
  (∀ s : State, s.arg0.toNat + s.arg1.toNat ≤ s.config.ibufBytes → s.arg1.toNat < s.config.scanMargin →
    ∃ t, exec .scan s = .next t ∧ t.status.err = false ∧ t.status.errCode = 0x00 ∧ t.status.short = true ∧
      t.status.nosc = true ∧ t.unitCount = 0 ∧ t.lastSc = 0xFFFFFFFF ∧ t.utab = s.utab)

/-- R168: running SCAN twice over the same written range gives identical results. -/
def Obligations.ScanIsIdempotent : Prop :=
  ∀ s t t' : State, s.config.Valid → rangeWritten s → exec .scan s = .next t → exec .scan t = .next t' →
    t' = { t with draws := t'.draws }

/-- R168: SCAN depends on nothing but the bytes of the range, its length, and the parameters: the value of the base does
not show in its results. -/
def Obligations.ScanIsRelativeToBase : Prop :=
  ∀ s s' t t' : State, s.config.Valid → rangeWritten s → s.argLen = s'.argLen → s.config = s'.config →
    s'.argOff + s'.argLen ≤ s'.config.ibufBytes → s.argOff + s.argLen ≤ s.config.ibufBytes →
    (∀ j, j < s.argLen → s.ibuf.lookup (s.argOff + j) = s'.ibuf.lookup (s'.argOff + j)) →
    exec .scan s = .next t → exec .scan s' = .next t' →
    t.status.err = t'.status.err ∧ t.status.errCode = t'.status.errCode ∧
      (t.status.err = false → t.unitCount = t'.unitCount ∧ t.lastSc = t'.lastSc ∧
        t.status.short = t'.status.short ∧ t.status.nosc = t'.status.nosc ∧
        t.utab.take t.unitCount.toNat = t'.utab.take t.unitCount.toNat)

/-- R170: a range that begins with z >= 3 zero bytes and a 0x01 begins with z - 3 bytes of no unit and a 4-byte start code,
if SCAN_MARGIN is 4: the first start code that the scan's loop finds is 4 bytes long at z - 3, the first unit begins at
z + 1, and if there is no other, LAST_SC is z - 3. -/
def Obligations.ZeroRunBeforeStartCode : Prop :=
  ∀ (s t : State) (z : Nat), s.config.Valid → s.config.scanMargin = 4 → 3 ≤ z → z + 1 ≤ s.argLen →
    (∀ j, j < z → s.ibuf.lookup (s.argOff + j) = some 0x00) → s.ibuf.lookup (s.argOff + z) = some 0x01 →
    exec .scan s = .next t → t.status.err = false →
    (∀ S, ScanRun (fun i d => s.rangeByte (4 * i + d) (i + d)) s.config.scanMargin s.argLen 0 S →
      S.head? = some (z - 3, 4)) ∧
    (∃ e, t.utab[0]? = some e ∧ e.dataOff.toNat = z + 1 ∧ t.unitCount ≠ 0) ∧
    (t.unitCount = 1 → t.lastSc.toNat = z - 3)

/-! ### STRIP -/

/-- R190, R192: STRIP, whole: its errors, and on success the kept bytes in order from OBUF offset 0, OUT_LEN, and the OBUF
bytes above left alone. Nothing else changes. Which reads of the range are separate is the model's reading (log 7). -/
def Obligations.StripCopiesKeptBytes : Prop :=
  parse 0x00000002 = some .strip ∧
  ∀ s : State,
    (s.config.ibufBytes < s.arg0.toNat + s.arg1.toNat ∨ s.config.obufBytes < s.arg1.toNat →
      ∃ d, exec .strip s = .next (failed s 0x02 d)) ∧
    (s.arg0.toNat + s.arg1.toNat ≤ s.config.ibufBytes → s.arg1.toNat ≤ s.config.obufBytes →
      ∃ (kept : List Nat) (o : Memory) (d : Nat),
        exec .strip s = .next (completed { s with obuf := o, outLen := BitVec.ofNat 32 kept.length } d) ∧
        kept.Pairwise (· < ·) ∧
        (∀ i, i ∈ kept ↔ i < s.arg1.toNat ∧ ¬ emulationByteAt s i) ∧
        (∀ m i, kept[m]? = some i → o.lookup m = some (s.rangeByte (5 * i + 4) i)) ∧
        (∀ a, kept.length ≤ a → o.lookup a = s.obuf.lookup a))

/-- R193: the output is as much shorter than the input as bytes are left out, and over a written range no two adjacent bytes
are. -/
def Obligations.StripLengthLaws : Prop :=
  ∀ s t : State, exec .strip s = .next t → t.status.err = false →
    (∃ removed : List Nat, removed.Pairwise (· < ·) ∧
      (∀ i, i ∈ removed ↔ i < s.arg1.toNat ∧ emulationByteAt s i) ∧
      t.outLen.toNat + removed.length = s.arg1.toNat) ∧
    (rangeWritten s → ∀ i, i + 1 < s.arg1.toNat → emulationByteAt s i → ¬ emulationByteAt s (i + 1))

/-- R193: STRIP is a function of its range: running it twice gives identical OBUF and OUT_LEN. -/
def Obligations.StripTwiceIsOnce : Prop :=
  ∀ s t t' : State, rangeWritten s → s.obuf.wf → exec .strip s = .next t → exec .strip t = .next t' →
    t' = { t with draws := t'.draws }

/-! ### The host bus -/

/-- R62, R64: a host access is a bus fault exactly when its width, its alignment or its place is not accepted, busy or not.
That a 32-bit access must end inside its region, and that BUSY does not come first, is the model's reading (log 11, 12). -/
def Obligations.BusFaultsExactly : Prop :=
  ∀ (s : State) (t : BusTarget) (bytes : Nat) (v : Word) (rest : List Input), s.config.Valid →
    (s.inputs = .read t bytes :: rest →
      ((∃ f, step s = .fault (.busFault f)) ↔ ¬ ∃ r off, Access s.config t bytes r off)) ∧
    (s.inputs = .write t bytes v :: rest →
      ((∃ f, step s = .fault (.busFault f)) ↔ ¬ ∃ r off, Access s.config t bytes r off))

/-- R270: an accepted host write to any region while BUSY = 1 is a fault of the host step; a host read then is not. -/
def Obligations.WriteWhileBusyFaults : Prop :=
  ∀ (s : State) (t : BusTarget) (bytes : Nat) (v : Word) (rest : List Input) (r : Region) (off : Nat),
    s.config.Valid → s.status.busy = true → Access s.config t bytes r off →
    (s.inputs = .write t bytes v :: rest → step s = .fault .hostWriteWhileBusy) ∧
    (s.inputs = .read t bytes :: rest → ∃ t', step s = .next t')

/-- R63: while BUSY = 0 a 32-bit host write to IBUF or OBUF stores its four bytes little-endian and nothing else, and a 32-bit
host read there returns the four bytes so; an 8-bit write stores its one byte, which is the low byte of the word it carries by
the model's choice (log 14). -/
def Obligations.HostWordsAreLittleEndian : Prop :=
  ∀ (s : State) (src : Source) (a : Nat) (v : Word) (rest : List Input) (r : Region),
    s.status.busy = false → r = bufferRegion src →
    (a % 4 = 0 → a + 4 ≤ s.config.size r → s.inputs = .write (.offset r a) 4 v :: rest →
      ∃ t, step s = .next t ∧
        (t.buffer src).lookup a = some (v.extractLsb' 0 8) ∧
        (t.buffer src).lookup (a + 1) = some (v.extractLsb' 8 8) ∧
        (t.buffer src).lookup (a + 2) = some (v.extractLsb' 16 8) ∧
        (t.buffer src).lookup (a + 3) = some (v.extractLsb' 24 8) ∧
        (∀ b, b < a ∨ a + 4 ≤ b → (t.buffer src).lookup b = (s.buffer src).lookup b) ∧
        t = { s with inputs := rest, ibuf := t.ibuf, obuf := t.obuf } ∧
        (src = .ibuf → t.obuf = s.obuf) ∧ (src = .obuf → t.ibuf = s.ibuf)) ∧
    (a < s.config.size r → s.inputs = .write (.offset r a) 1 v :: rest →
      ∃ t, step s = .next t ∧ (t.buffer src).lookup a = some (v.extractLsb' 0 8) ∧
        (∀ b, b ≠ a → (t.buffer src).lookup b = (s.buffer src).lookup b) ∧
        t = { s with inputs := rest, ibuf := t.ibuf, obuf := t.obuf } ∧
        (src = .ibuf → t.obuf = s.obuf) ∧ (src = .obuf → t.ibuf = s.ibuf)) ∧
    (a % 4 = 0 → a + 4 ≤ s.config.size r → s.inputs = .read (.offset r a) 4 :: rest →
      ∀ b0 b1 b2 b3, (s.buffer src).lookup a = some b0 → (s.buffer src).lookup (a + 1) = some b1 →
        (s.buffer src).lookup (a + 2) = some b2 → (s.buffer src).lookup (a + 3) = some b3 →
        ∃ t w, step s = .next t ∧ t.readData = some w ∧ w.extractLsb' 0 8 = b0 ∧ w.extractLsb' 8 8 = b1 ∧
          w.extractLsb' 16 8 = b2 ∧ w.extractLsb' 24 8 = b3)

/-- R21, R29, R35, R45: while BUSY = 0 a host write to ARG0 or ARG1 stores it, and one to a read-only register, to a reserved
offset or to UTAB is ignored. -/
def Obligations.OperandAndIgnoredWrites : Prop :=
  ∀ (s : State) (off : Nat) (v : Word) (rest : List Input), s.status.busy = false → off % 4 = 0 →
    (s.inputs = .write (.offset .reg 0x08) 4 v :: rest → step s = .next { s with inputs := rest, arg0 := v }) ∧
    (s.inputs = .write (.offset .reg 0x0C) 4 v :: rest → step s = .next { s with inputs := rest, arg1 := v }) ∧
    (off + 4 ≤ 256 → off ≠ 0x00 → off ≠ 0x08 → off ≠ 0x0C → s.inputs = .write (.offset .reg off) 4 v :: rest →
      step s = .next { s with inputs := rest }) ∧
    (off + 4 ≤ 16 * s.config.utabDepth → s.inputs = .write (.offset .utab off) 4 v :: rest →
      step s = .next { s with inputs := rest })

/-- R69: a host read changes nothing of ANFE: what it leaves differs only in what is outside. -/
def Obligations.HostReadsHaveNoSideEffect : Prop :=
  ∀ (s t : State) (tgt : BusTarget) (bytes : Nat) (rest : List Input), s.inputs = .read tgt bytes :: rest →
    step s = .next t → t = { s with inputs := rest, readData := t.readData, draws := t.draws }

/-- R21, R33, R34: what the registers read as while BUSY = 0. The reserved offsets and CMD read 0. -/
def Obligations.RegisterMapReads : Prop :=
  ∀ (s t : State) (off : Nat) (rest : List Input), s.status.busy = false → off % 4 = 0 → off + 4 ≤ 256 →
    s.inputs = .read (.offset .reg off) 4 :: rest → step s = .next t →
    ∃ v : Word, t.readData = some v ∧
      (off = 0x00 → v = 0) ∧ (off = 0x08 → v = s.arg0) ∧ (off = 0x0C → v = s.arg1) ∧ (off = 0x10 → v = s.result) ∧
      (off = 0x14 → v = s.unitCount) ∧ (off = 0x18 → v = s.lastSc) ∧ (off = 0x1C → v = s.outLen) ∧
      (off = 0x20 → v = s.br.base) ∧ (off = 0x24 → v = s.br.size) ∧ (off = 0x28 → v = s.br.byte) ∧
      (off = 0x2C → v.toNat = s.br.bit.toNat) ∧
      (off = 0x30 → v = (match s.br.src with | .ibuf => 0 | .obuf => 1)) ∧
      (off = 0x40 → v = BitVec.ofNat 32 s.config.ibufBytes) ∧ (off = 0x44 → v = BitVec.ofNat 32 s.config.obufBytes) ∧
      (off = 0x48 → v = BitVec.ofNat 32 s.config.utabDepth) ∧
      (0x34 ≤ off ∧ off ≤ 0x3C ∨ 0x4C ≤ off → v = 0)

/-- R23, R28: the fields of the word a host reads from STATUS, busy or not; the reserved bits read 0. -/
def Obligations.StatusWordLayout : Prop :=
  ∀ (s t : State) (rest : List Input), s.inputs = .read (.offset .reg 0x04) 4 :: rest → step s = .next t →
    ∃ v : Word, t.readData = some v ∧ v.getLsbD 0 = s.status.busy ∧ v.getLsbD 1 = s.status.done ∧
      v.getLsbD 2 = s.status.err ∧ v.getLsbD 3 = s.status.short ∧ v.getLsbD 4 = s.status.nosc ∧
      v.extractLsb' 5 3 = 0 ∧ v.extractLsb' 8 8 = s.status.errCode ∧
      v.extractLsb' 16 2 = (match s.br.state with | .idle => 0 | .ready => 1 | .failed => 2) ∧
      v.extractLsb' 18 14 = 0

/-- R45, R46: what the words of an entry written by a SCAN read as while BUSY = 0; word 3 of every entry reads 0. -/
def Obligations.UtabReads : Prop :=
  ∀ (s t : State) (k word : Nat) (rest : List Input), s.status.busy = false → k < s.config.utabDepth → word < 4 →
    s.inputs = .read (.offset .utab (16 * k + 4 * word)) 4 :: rest → step s = .next t →
    (word = 3 → t.readData = some 0) ∧
    (∀ e, s.utab[k]? = some e → (word = 0 → t.readData = some e.dataOff) ∧ (word = 1 → t.readData = some e.len) ∧
      (word = 2 → t.readData = some e.hdr))

/-- R75: the host reads that are exact while BUSY = 1: STATUS shows BUSY and not DONE, and ARG0, ARG1, the CAP registers and
the written bytes of IBUF, one or four, read as they are. That an 8-bit read returns its byte zero-extended in a word is the
model's choice (log 14). -/
def Obligations.ExactReadsWhileBusy : Prop :=
  ∀ (s t : State) (off : Nat) (rest : List Input), s.Inv → s.status.busy = true → step s = .next t →
    (s.inputs = .read (.offset .reg off) 4 :: rest →
      ∃ v : Word, t.readData = some v ∧ (off = 0x04 → v.getLsbD 0 = true ∧ v.getLsbD 1 = false) ∧
        (off = 0x08 → v = s.arg0) ∧ (off = 0x0C → v = s.arg1) ∧
        (off = 0x40 → v.toNat = s.config.ibufBytes) ∧ (off = 0x44 → v.toNat = s.config.obufBytes) ∧
        (off = 0x48 → v.toNat = s.config.utabDepth)) ∧
    (∀ b, s.inputs = .read (.offset .ibuf off) 1 :: rest → s.ibuf.lookup off = some b →
      t.readData = some (b.setWidth 32)) ∧
    (∀ b0 b1 b2 b3, s.inputs = .read (.offset .ibuf off) 4 :: rest → s.ibuf.lookup off = some b0 →
      s.ibuf.lookup (off + 1) = some b1 → s.ibuf.lookup (off + 2) = some b2 → s.ibuf.lookup (off + 3) = some b3 →
      ∃ w : Word, t.readData = some w ∧ w.extractLsb' 0 8 = b0 ∧ w.extractLsb' 8 8 = b1 ∧ w.extractLsb' 16 8 = b2 ∧
        w.extractLsb' 24 8 = b3)

/-! ### Reset, runs and invariants -/

/-- R55, R260: reset, from any state, whatever the engine is doing. Nothing of the buffers or of UTAB is written after it. -/
def Obligations.ResetGivesR55 : Prop :=
  ∀ (s : State) (rest : List Input), s.inputs = .reset :: rest →
    ∃ t, step s = .next t ∧ t.status.word t.br.state = 0 ∧ t.arg0 = 0 ∧ t.arg1 = 0 ∧ t.result = 0 ∧ t.unitCount = 0 ∧
      t.lastSc = 0xFFFFFFFF ∧ t.outLen = 0 ∧
      t.br = { base := 0, size := 0, byte := 0, bit := 0, src := .ibuf, state := .idle } ∧ t.latch = none ∧
      t.config = s.config ∧ t.inputs = rest ∧
      (∀ a, t.ibuf.lookup a = none ∧ t.obuf.lookup a = none) ∧ (∀ k : Nat, t.utab[k]? = none)

/-- The invariants hold after reset, in every build that R6 admits. -/
def Obligations.InvariantsAfterReset : Prop :=
  (∀ c : Config, c.Valid → (State.resetWith c).Inv) ∧ State.reset.Inv

/-- Every step keeps the invariants: those of R6, R23, R26, R31, R40, R45, R46, R47, R50, R51, R52, R166 and R190, and the
canonical form of the buffers. -/
def Obligations.StepKeepsInvariants : Prop :=
  ∀ s t : State, s.Inv → step s = .next t → t.Inv

/-- Only the host stops the machine, by a bus fault or a write while busy (R229); no step is refused; and with no host access
next, a step always has a next state (R214: the engine never hangs). -/
def Obligations.OnlyHostAccessesFault : Prop :=
  ∀ s : State,
    (∀ r, step s ≠ .refused r) ∧
    (∀ f, step s = .fault f → (∃ c, f = .busFault c) ∨ (f = .hostWriteWhileBusy ∧ s.status.busy = true)) ∧
    ((∀ t b rest, s.inputs ≠ .read t b :: rest) → (∀ t b v rest, s.inputs ≠ .write t b v :: rest) →
      ∃ t, step s = .next t)

/-- R101, R281: a `wait` ends: two steps after it finds BUSY = 1 the command is complete and the host has read DONE = 1. -/
def Obligations.WaitEnds : Prop :=
  ∀ (s : State) (rest : List Input), s.Inv → s.inputs = .wait :: rest → s.status.busy = true →
    ∃ t, steps 2 s = .next t ∧ t.inputs = rest ∧ t.latch = none ∧ t.status.done = true ∧ t.status.busy = false ∧
      ∃ v : Word, t.readData = some v ∧ v.getLsbD 0 = false ∧ v.getLsbD 1 = true

/-- R100: a command line's host operations run its command on its operands, and the line has finished when they are used up.
The host last read the STATUS the command left. -/
def Obligations.CommandLineRuns : Prop :=
  ∀ (s : State) (l : AsmLine) (i : Instr) (args : Option (Word × Word)) (xs : List Input),
    lineCommand l = some (i, args) → assemble l = some xs → s.inputs = xs → s.status.busy = false →
    ∃ t u, steps (match args with | none => 3 | some _ => 5) s = .next t ∧
      exec i (issued { s with
        inputs := t.inputs
        arg0 := (match args with | none => s.arg0 | some a => a.1)
        arg1 := (match args with | none => s.arg1 | some a => a.2) } (encode i)) = .next u ∧
      t = { u with inputs := [], readData := some (u.status.word u.br.state) }

/-- R246: a step of one instance leaves the others, and does to it what it does to it alone. -/
def Obligations.InstancesAreIndependent : Prop :=
  ∀ (p q : Platform) (k : Nat) (s : State), p.unit k = some s → p.step (.turn k) = .next q →
    (∃ t, step s = .next t ∧ q.unit k = some t) ∧ ∀ j, j ≠ k → q.unit j = p.unit j

/-! ### More of the host bus and of the platform -/

/-- R60: a bus address in a region, and the region's offset, name the same place: an access by one does what an access by the
other does. Outside all regions an access is a bus fault (R64). -/
def Obligations.BusAddressNamesOffset : Prop :=
  ∀ (s : State) (bytes : Nat) (v : Word) (rest : List Input), s.config.Valid →
    (∀ (r : Region) (off : Nat), off < s.config.size r →
      step { s with inputs := .read (.address (s.config.base r + off)) bytes :: rest } =
          step { s with inputs := .read (.offset r off) bytes :: rest } ∧
        step { s with inputs := .write (.address (s.config.base r + off)) bytes v :: rest } =
          step { s with inputs := .write (.offset r off) bytes v :: rest }) ∧
    (∀ a, (∀ r : Region, a < s.config.base r ∨ s.config.base r + s.config.size r ≤ a) →
      step { s with inputs := .read (.address a) bytes :: rest } = .fault (.busFault .unmapped) ∧
        step { s with inputs := .write (.address a) bytes v :: rest } = .fault (.busFault .unmapped))

/-- R62, R66: while BUSY = 0 an 8-bit host read of a written byte of IBUF or OBUF returns it, at any offset, and changes
nothing of ANFE. That the byte stands in the low byte of a word is the model's choice (log 14). -/
def Obligations.HostByteReads : Prop :=
  ∀ (s : State) (src : Source) (a : Nat) (b : Byte) (rest : List Input),
    s.status.busy = false → a < s.config.size (bufferRegion src) → (s.buffer src).lookup a = some b →
    s.inputs = .read (.offset (bufferRegion src) a) 1 :: rest →
    ∃ t, step s = .next t ∧ t.readData = some (b.setWidth 32) ∧
      t = { s with inputs := rest, readData := t.readData, draws := t.draws }

/-- R69: while BUSY = 0 a second host read of one place returns what the first returned, a word of UTAB that nothing has
written included (log 9); but for a buffer byte that nothing has written, which R66 excepts. -/
def Obligations.HostReadsRepeat : Prop :=
  ∀ (s : State) (tgt : BusTarget) (bytes : Nat) (r : Region) (off : Nat) (rest : List Input),
    s.config.Valid → s.status.busy = false → Access s.config tgt bytes r off →
    (∀ j, j < bytes →
      (r = .ibuf → (s.ibuf.lookup (off + j)).isSome = true) ∧ (r = .obuf → (s.obuf.lookup (off + j)).isSome = true)) →
    s.inputs = .read tgt bytes :: .read tgt bytes :: rest →
    ∃ t u v, step s = .next t ∧ step t = .next u ∧ t.readData = some v ∧ u.readData = some v

/-- R246: a host access at a bus address inside a region of one instance is that instance's own step on it, and leaves the
other instances; outside the regions of all instances it is a bus fault. The platform is the model's (log 18). -/
def Obligations.BusReachesOneInstance : Prop :=
  ∀ (p : Platform) (bytes : Nat) (v : Word), p.Valid →
    (∀ (k : Nat) (s : State) (r : Region) (off a : Nat) (x : PlatformInput) (y : Input),
      p.unit k = some s → off < s.config.size r → a = s.config.base r + off →
      (x = .read a bytes ∧ y = .read (.address a) bytes) ∨ (x = .write a bytes v ∧ y = .write (.address a) bytes v) →
      (∀ t, step { s with inputs := y :: s.inputs } = .next t →
        ∃ q, p.step x = .next q ∧ q.unit k = some t ∧ ∀ j, j ≠ k → q.unit j = p.unit j) ∧
      (∀ f, step { s with inputs := y :: s.inputs } = .fault f → p.step x = .fault f)) ∧
    (∀ a, (∀ s ∈ p.units, ∀ r : Region, a < s.config.base r ∨ s.config.base r + s.config.size r ≤ a) →
      p.step (.read a bytes) = .fault (.busFault .unmapped) ∧ p.step (.write a bytes v) = .fault (.busFault .unmapped))
end

