-- ==== Sys2Proof/Laws/State.lean ====
section
/-! SUPPORT. One lemma per field per update of State and of STATUS, true by rfl, so that no later proof unfolds a record
update. -/

namespace Sys2Proof.Machine

@[simp] theorem State.issue_config (w : Word) (s : State) : (s.issue w).config = s.config := rfl
@[simp] theorem State.issue_status (w : Word) (s : State) : (s.issue w).status = s.status.issued := rfl
@[simp] theorem State.issue_arg0 (w : Word) (s : State) : (s.issue w).arg0 = s.arg0 := rfl
@[simp] theorem State.issue_arg1 (w : Word) (s : State) : (s.issue w).arg1 = s.arg1 := rfl
@[simp] theorem State.issue_result (w : Word) (s : State) : (s.issue w).result = s.result := rfl
@[simp] theorem State.issue_unitCount (w : Word) (s : State) : (s.issue w).unitCount = s.unitCount := rfl
@[simp] theorem State.issue_lastSc (w : Word) (s : State) : (s.issue w).lastSc = s.lastSc := rfl
@[simp] theorem State.issue_outLen (w : Word) (s : State) : (s.issue w).outLen = s.outLen := rfl
@[simp] theorem State.issue_br (w : Word) (s : State) : (s.issue w).br = s.br := rfl
@[simp] theorem State.issue_utab (w : Word) (s : State) : (s.issue w).utab = s.utab := rfl
@[simp] theorem State.issue_ibuf (w : Word) (s : State) : (s.issue w).ibuf = s.ibuf := rfl
@[simp] theorem State.issue_obuf (w : Word) (s : State) : (s.issue w).obuf = s.obuf := rfl
@[simp] theorem State.issue_latch (w : Word) (s : State) : (s.issue w).latch = some w := rfl
@[simp] theorem State.issue_inputs (w : Word) (s : State) : (s.issue w).inputs = s.inputs := rfl
@[simp] theorem State.issue_readData (w : Word) (s : State) : (s.issue w).readData = s.readData := rfl
@[simp] theorem State.issue_stream (w : Word) (s : State) : (s.issue w).stream = s.stream := rfl
@[simp] theorem State.issue_draws (w : Word) (s : State) : (s.issue w).draws = s.draws := rfl
@[simp] theorem State.issue_resets (w : Word) (s : State) : (s.issue w).resets = s.resets := rfl

@[simp] theorem State.succeed_config (s : State) : s.succeed.config = s.config := rfl
@[simp] theorem State.succeed_status (s : State) : s.succeed.status = s.status.succeeded := rfl
@[simp] theorem State.succeed_arg0 (s : State) : s.succeed.arg0 = s.arg0 := rfl
@[simp] theorem State.succeed_arg1 (s : State) : s.succeed.arg1 = s.arg1 := rfl
@[simp] theorem State.succeed_result (s : State) : s.succeed.result = s.result := rfl
@[simp] theorem State.succeed_unitCount (s : State) : s.succeed.unitCount = s.unitCount := rfl
@[simp] theorem State.succeed_lastSc (s : State) : s.succeed.lastSc = s.lastSc := rfl
@[simp] theorem State.succeed_outLen (s : State) : s.succeed.outLen = s.outLen := rfl
@[simp] theorem State.succeed_br (s : State) : s.succeed.br = s.br := rfl
@[simp] theorem State.succeed_utab (s : State) : s.succeed.utab = s.utab := rfl
@[simp] theorem State.succeed_ibuf (s : State) : s.succeed.ibuf = s.ibuf := rfl
@[simp] theorem State.succeed_obuf (s : State) : s.succeed.obuf = s.obuf := rfl
@[simp] theorem State.succeed_latch (s : State) : s.succeed.latch = none := rfl
@[simp] theorem State.succeed_inputs (s : State) : s.succeed.inputs = s.inputs := rfl
@[simp] theorem State.succeed_readData (s : State) : s.succeed.readData = s.readData := rfl
@[simp] theorem State.succeed_stream (s : State) : s.succeed.stream = s.stream := rfl
@[simp] theorem State.succeed_draws (s : State) : s.succeed.draws = s.draws := rfl
@[simp] theorem State.succeed_resets (s : State) : s.succeed.resets = s.resets := rfl

@[simp] theorem State.raise_config (e : ErrorCode) (s : State) : (s.raise e).config = s.config := rfl
@[simp] theorem State.raise_status (e : ErrorCode) (s : State) : (s.raise e).status = s.status.failedWith e := rfl
@[simp] theorem State.raise_arg0 (e : ErrorCode) (s : State) : (s.raise e).arg0 = s.arg0 := rfl
@[simp] theorem State.raise_arg1 (e : ErrorCode) (s : State) : (s.raise e).arg1 = s.arg1 := rfl
@[simp] theorem State.raise_result (e : ErrorCode) (s : State) : (s.raise e).result = s.result := rfl
@[simp] theorem State.raise_unitCount (e : ErrorCode) (s : State) : (s.raise e).unitCount = s.unitCount := rfl
@[simp] theorem State.raise_lastSc (e : ErrorCode) (s : State) : (s.raise e).lastSc = s.lastSc := rfl
@[simp] theorem State.raise_outLen (e : ErrorCode) (s : State) : (s.raise e).outLen = s.outLen := rfl
@[simp] theorem State.raise_br (e : ErrorCode) (s : State) : (s.raise e).br = if isDataError e then { s.br with state := .failed } else s.br := rfl
@[simp] theorem State.raise_utab (e : ErrorCode) (s : State) : (s.raise e).utab = s.utab := rfl
@[simp] theorem State.raise_ibuf (e : ErrorCode) (s : State) : (s.raise e).ibuf = s.ibuf := rfl
@[simp] theorem State.raise_obuf (e : ErrorCode) (s : State) : (s.raise e).obuf = s.obuf := rfl
@[simp] theorem State.raise_latch (e : ErrorCode) (s : State) : (s.raise e).latch = none := rfl
@[simp] theorem State.raise_inputs (e : ErrorCode) (s : State) : (s.raise e).inputs = s.inputs := rfl
@[simp] theorem State.raise_readData (e : ErrorCode) (s : State) : (s.raise e).readData = s.readData := rfl
@[simp] theorem State.raise_stream (e : ErrorCode) (s : State) : (s.raise e).stream = s.stream := rfl
@[simp] theorem State.raise_draws (e : ErrorCode) (s : State) : (s.raise e).draws = s.draws := rfl
@[simp] theorem State.raise_resets (e : ErrorCode) (s : State) : (s.raise e).resets = s.resets := rfl

@[simp] theorem State.spend_config (k : Nat) (s : State) : (s.spend k).config = s.config := rfl
@[simp] theorem State.spend_status (k : Nat) (s : State) : (s.spend k).status = s.status := rfl
@[simp] theorem State.spend_arg0 (k : Nat) (s : State) : (s.spend k).arg0 = s.arg0 := rfl
@[simp] theorem State.spend_arg1 (k : Nat) (s : State) : (s.spend k).arg1 = s.arg1 := rfl
@[simp] theorem State.spend_result (k : Nat) (s : State) : (s.spend k).result = s.result := rfl
@[simp] theorem State.spend_unitCount (k : Nat) (s : State) : (s.spend k).unitCount = s.unitCount := rfl
@[simp] theorem State.spend_lastSc (k : Nat) (s : State) : (s.spend k).lastSc = s.lastSc := rfl
@[simp] theorem State.spend_outLen (k : Nat) (s : State) : (s.spend k).outLen = s.outLen := rfl
@[simp] theorem State.spend_br (k : Nat) (s : State) : (s.spend k).br = s.br := rfl
@[simp] theorem State.spend_utab (k : Nat) (s : State) : (s.spend k).utab = s.utab := rfl
@[simp] theorem State.spend_ibuf (k : Nat) (s : State) : (s.spend k).ibuf = s.ibuf := rfl
@[simp] theorem State.spend_obuf (k : Nat) (s : State) : (s.spend k).obuf = s.obuf := rfl
@[simp] theorem State.spend_latch (k : Nat) (s : State) : (s.spend k).latch = s.latch := rfl
@[simp] theorem State.spend_inputs (k : Nat) (s : State) : (s.spend k).inputs = s.inputs := rfl
@[simp] theorem State.spend_readData (k : Nat) (s : State) : (s.spend k).readData = s.readData := rfl
@[simp] theorem State.spend_stream (k : Nat) (s : State) : (s.spend k).stream = s.stream := rfl
@[simp] theorem State.spend_draws (k : Nat) (s : State) : (s.spend k).draws = s.draws + k := rfl
@[simp] theorem State.spend_resets (k : Nat) (s : State) : (s.spend k).resets = s.resets := rfl

@[simp] theorem Status.issued_busy (st : Status) : st.issued.busy = true := rfl
@[simp] theorem Status.issued_done (st : Status) : st.issued.done = false := rfl
@[simp] theorem Status.issued_err (st : Status) : st.issued.err = false := rfl
@[simp] theorem Status.issued_short (st : Status) : st.issued.short = st.short := rfl
@[simp] theorem Status.issued_nosc (st : Status) : st.issued.nosc = st.nosc := rfl
@[simp] theorem Status.issued_errCode (st : Status) : st.issued.errCode = 0 := rfl

@[simp] theorem Status.succeeded_busy (st : Status) : st.succeeded.busy = false := rfl
@[simp] theorem Status.succeeded_done (st : Status) : st.succeeded.done = true := rfl
@[simp] theorem Status.succeeded_err (st : Status) : st.succeeded.err = false := rfl
@[simp] theorem Status.succeeded_short (st : Status) : st.succeeded.short = st.short := rfl
@[simp] theorem Status.succeeded_nosc (st : Status) : st.succeeded.nosc = st.nosc := rfl
@[simp] theorem Status.succeeded_errCode (st : Status) : st.succeeded.errCode = 0 := rfl

@[simp] theorem Status.failedWith_busy (e : ErrorCode) (st : Status) : (st.failedWith e).busy = false := rfl
@[simp] theorem Status.failedWith_done (e : ErrorCode) (st : Status) : (st.failedWith e).done = true := rfl
@[simp] theorem Status.failedWith_err (e : ErrorCode) (st : Status) : (st.failedWith e).err = true := rfl
@[simp] theorem Status.failedWith_short (e : ErrorCode) (st : Status) : (st.failedWith e).short = st.short := rfl
@[simp] theorem Status.failedWith_nosc (e : ErrorCode) (st : Status) : (st.failedWith e).nosc = st.nosc := rfl
@[simp] theorem Status.failedWith_errCode (e : ErrorCode) (st : Status) : (st.failedWith e).errCode = errorNumber e := rfl

@[simp] theorem Status.scanned_busy (short nosc : Bool) (st : Status) : (st.scanned short nosc).busy = st.busy := rfl
@[simp] theorem Status.scanned_done (short nosc : Bool) (st : Status) : (st.scanned short nosc).done = st.done := rfl
@[simp] theorem Status.scanned_err (short nosc : Bool) (st : Status) : (st.scanned short nosc).err = st.err := rfl
@[simp] theorem Status.scanned_short (short nosc : Bool) (st : Status) : (st.scanned short nosc).short = short := rfl
@[simp] theorem Status.scanned_nosc (short nosc : Bool) (st : Status) : (st.scanned short nosc).nosc = nosc := rfl
@[simp] theorem Status.scanned_errCode (short nosc : Bool) (st : Status) : (st.scanned short nosc).errCode = st.errCode := rfl

@[simp] theorem BitReader.setConsumed_base (c : Nat) (br : BitReader) : (br.setConsumed c).base = br.base := rfl
@[simp] theorem BitReader.setConsumed_size (c : Nat) (br : BitReader) : (br.setConsumed c).size = br.size := rfl
@[simp] theorem BitReader.setConsumed_src (c : Nat) (br : BitReader) : (br.setConsumed c).src = br.src := rfl
@[simp] theorem BitReader.setConsumed_state (c : Nat) (br : BitReader) : (br.setConsumed c).state = br.state := rfl

/-- Raising an error moves nothing of BR but its state. -/
theorem State.raise_br_fields (e : ErrorCode) (s : State) :
    (s.raise e).br.base = s.br.base ∧ (s.raise e).br.size = s.br.size ∧ (s.raise e).br.byte = s.br.byte ∧
      (s.raise e).br.bit = s.br.bit ∧ (s.raise e).br.src = s.br.src := by
  rw [State.raise_br]
  split <;> exact ⟨rfl, rfl, rfl, rfl, rfl⟩

/-- No error has the code 0 (R220). -/
theorem errorNumber_ne_zero (e : ErrorCode) : errorNumber e ≠ 0 := by cases e <;> decide

/-- The codes above 0x07 are never produced (R220). -/
theorem errorNumber_le (e : ErrorCode) : (errorNumber e).toNat ≤ 7 := by cases e <;> decide

end Sys2Proof.Machine
end

