-- ==== Sys2Proof/Laws/Memory.lean ====
section
/-! SUPPORT. The laws of the buffers: a read after a write, what a write leaves alone, and that every operation keeps the
canonical form and the capacity. -/

namespace Sys2Proof.Machine

@[simp] theorem Memory.lookup_nil (a : Nat) : Memory.lookup [] a = none := rfl

/-- The byte at an offset after one write. -/
theorem Memory.lookup_write (m : Memory) (a b : Nat) (v : Byte) :
    (m.write a v).lookup b = if b = a then some v else m.lookup b := by
  induction m with
  | nil => simp only [Memory.write, Memory.lookup, eq_comm]
  | cons x rest ih =>
    obtain ⟨c, w⟩ := x
    simp only [Memory.write]
    split
    · simp only [Memory.lookup, eq_comm]
    · split
      · rename_i h; subst h; simp only [Memory.lookup]
        by_cases hb : a = b <;> simp [hb, eq_comm]
      · simp only [Memory.lookup, ih]
        by_cases hb : b = a
        · subst hb; simp only [if_true]; rw [if_neg (by omega)]
        · simp only [hb, if_false]

/-- The byte at an offset after a run of bytes is written from a on. -/
theorem Memory.lookup_writeBytes (m : Memory) (a b : Nat) (vs : List Byte) :
    (m.writeBytes a vs).lookup b = if a ≤ b ∧ b < a + vs.length then vs[b - a]? else m.lookup b := by
  induction vs generalizing m a with
  | nil =>
    rw [if_neg (by simp only [List.length_nil]; omega)]
    rfl
  | cons v vs ih =>
    simp only [Memory.writeBytes, ih, Memory.lookup_write, List.length_cons]
    by_cases h0 : b = a
    · subst h0; simp
    · by_cases h1 : a + 1 ≤ b ∧ b < a + 1 + vs.length
      · rw [if_pos h1, if_pos (by omega), show b - a = (b - (a + 1)) + 1 by omega]; rfl
      · rw [if_neg h1, if_neg h0, if_neg (by omega)]

/-- The offsets listed after a write are the written one and those listed before. -/
theorem Memory.mem_write {m : Memory} {a : Nat} {v : Byte} {x : Host.Cell} (h : x ∈ m.write a v) :
    x = (a, v) ∨ x ∈ m := by
  induction m with
  | nil => simp only [Memory.write, List.mem_singleton] at h; exact Or.inl h
  | cons y rest ih =>
    obtain ⟨c, w⟩ := y
    simp only [Memory.write] at h
    split at h
    · exact (List.mem_cons.mp h).imp id id
    · split at h
      · exact (List.mem_cons.mp h).imp id (List.mem_cons_of_mem _)
      · rcases List.mem_cons.mp h with h | h
        · exact Or.inr (h ▸ List.mem_cons_self)
        · exact (ih h).imp id (List.mem_cons_of_mem _)

/-- A write keeps the canonical form. -/
theorem Memory.write_wf {m : Memory} (hm : m.wf) (a : Nat) (v : Byte) : (m.write a v).wf := by
  induction m with
  | nil => exact List.pairwise_singleton _ _
  | cons y rest ih =>
    obtain ⟨c, w⟩ := y
    obtain ⟨hc, hr⟩ := List.pairwise_cons.mp hm
    simp only [Memory.write]
    split
    · rename_i h
      refine List.pairwise_cons.mpr ⟨fun x hx => ?_, hm⟩
      rcases List.mem_cons.mp hx with rfl | hx
      · exact h
      · exact Nat.lt_trans h (hc x hx)
    · split
      · rename_i h; subst h; exact List.pairwise_cons.mpr ⟨hc, hr⟩
      · refine List.pairwise_cons.mpr ⟨fun x hx => ?_, ih hr⟩
        rcases Memory.mem_write hx with rfl | hx
        · show c < a; omega
        · exact hc x hx

/-- A run of writes keeps the canonical form. -/
theorem Memory.writeBytes_wf {m : Memory} (hm : m.wf) (a : Nat) (vs : List Byte) : (m.writeBytes a vs).wf := by
  induction vs generalizing m a with
  | nil => exact hm
  | cons v vs ih => exact ih (Memory.write_wf hm a v) (a + 1)

/-- A write below a bound keeps every listed offset below it. -/
theorem Memory.write_below {m : Memory} {bound a : Nat} (hm : m.below bound) (ha : a < bound) (v : Byte) :
    (m.write a v).below bound := by
  intro x hx
  rcases Memory.mem_write hx with rfl | hx
  · exact ha
  · exact hm x hx

/-- A run of writes below a bound keeps every listed offset below it. -/
theorem Memory.writeBytes_below {m : Memory} {bound a : Nat} {vs : List Byte} (hm : m.below bound)
    (ha : a + vs.length ≤ bound) : (m.writeBytes a vs).below bound := by
  induction vs generalizing m a with
  | nil => exact hm
  | cons v vs ih =>
    simp only [List.length_cons] at ha
    exact ih (Memory.write_below hm (by omega) v) (by omega)

/-- A written byte reads as the last value written to it, whichever draw the read is (R66). -/
theorem Memory.byteAt_of_lookup {m : Memory} {a : Nat} {v : Byte} (h : m.lookup a = some v) (drawn : Byte) :
    m.byteAt a drawn = v := by
  simp [Memory.byteAt, h]

/-- A listed byte is found, in canonical form. -/
theorem Memory.lookup_of_mem {m : Memory} (hm : m.wf) {x : Host.Cell} (hx : x ∈ m) : m.lookup x.1 = some x.2 := by
  induction m with
  | nil => exact absurd hx (List.not_mem_nil)
  | cons y rest ih =>
    obtain ⟨hy, hr⟩ := List.pairwise_cons.mp hm
    rcases List.mem_cons.mp hx with rfl | hx
    · simp [Memory.lookup]
    · have : y.1 ≠ x.1 := Nat.ne_of_lt (hy x hx)
      simp only [Memory.lookup, if_neg this]
      exact ih hr hx

/-- What is found is listed. -/
theorem Memory.mem_of_lookup {m : Memory} {a : Nat} {v : Byte} (h : m.lookup a = some v) : (a, v) ∈ m := by
  induction m with
  | nil => cases h
  | cons y rest ih =>
    obtain ⟨c, w⟩ := y
    simp only [Memory.lookup] at h
    split at h
    · rename_i hc; cases h; subst hc; exact List.mem_cons_self
    · exact List.mem_cons_of_mem _ (ih h)

/-- Equal memories are equal data: two canonical memories that read alike are the same list. -/
theorem Memory.ext_of_wf {m m' : Memory} (hm : m.wf) (hm' : m'.wf) (h : ∀ a, m.lookup a = m'.lookup a) : m = m' := by
  have hmem : ∀ x, x ∈ m ↔ x ∈ m' := fun x =>
    ⟨fun hx => Memory.mem_of_lookup ((h x.1).symm.trans (Memory.lookup_of_mem hm hx)),
     fun hx => Memory.mem_of_lookup ((h x.1).trans (Memory.lookup_of_mem hm' hx))⟩
  have hnodup : ∀ {l : Memory}, l.wf → l.Nodup := fun hl =>
    hl.imp (fun {a b} hab => fun e => absurd hab (by rw [e]; exact Nat.lt_irrefl _))
  have hperm : m.Perm m' := (List.perm_ext_iff_of_nodup (hnodup hm) (hnodup hm')).mpr hmem
  exact List.Perm.eq_of_pairwise (fun a b _ _ h1 h2 => absurd h1 (Nat.lt_asymm h2)) hm hm' hperm

end Sys2Proof.Machine
end

