-- ==== Sys2Proof/Laws/Reader.lean ====
section
/-! SUPPORT. The laws of the BitReader: its cursor, the value of a run of bits, the count of leading zeros, and what a read
command can do. -/

namespace Sys2Proof.Machine

/-- Fields decide a BitReader. -/
theorem BitReader.ext_fields {a b : BitReader} (h1 : a.base = b.base) (h2 : a.size = b.size) (h3 : a.byte = b.byte)
    (h4 : a.bit = b.bit) (h5 : a.src = b.src) (h6 : a.state = b.state) : a = b := by
  cases a; cases b; simp_all

theorem BitReader.consumed_lt (br : BitReader) : br.consumed < 2 ^ 35 := by
  have h1 := br.byte.isLt
  have h2 := br.bit.isLt
  unfold BitReader.consumed
  omega

/-- The cursor set to c has consumed c, modulo the width of the cursor. -/
theorem BitReader.consumed_setConsumed (c : Nat) (br : BitReader) : (br.setConsumed c).consumed = c % 2 ^ 35 := by
  simp only [BitReader.consumed, BitReader.setConsumed, BitVec.toNat_ofNat]
  omega

theorem BitReader.setConsumed_mod (c : Nat) (br : BitReader) : br.setConsumed (c % 2 ^ 35) = br.setConsumed c := by
  refine BitReader.ext_fields rfl rfl (BitVec.eq_of_toNat_eq ?_) (BitVec.eq_of_toNat_eq ?_) rfl rfl <;>
    simp only [BitReader.setConsumed, BitVec.toNat_ofNat] <;> omega

@[simp] theorem BitReader.setConsumed_setConsumed (c d : Nat) (br : BitReader) :
    (br.setConsumed c).setConsumed d = br.setConsumed d := rfl

@[simp] theorem BitReader.setConsumed_self (br : BitReader) : br.setConsumed br.consumed = br := by
  have h2 := br.bit.isLt
  refine BitReader.ext_fields rfl rfl (BitVec.eq_of_toNat_eq ?_) (BitVec.eq_of_toNat_eq ?_) rfl rfl <;>
    simp only [BitReader.setConsumed, BitReader.consumed, BitVec.toNat_ofNat] <;> omega

/-- `advance()` consumes one bit (R42). -/
theorem BitReader.advance_eq (br : BitReader) : br.advance = br.setConsumed (br.consumed + 1) := by
  have h1 := br.byte.isLt
  have h2 := br.bit.isLt
  have e1 : (1 : Word).toNat = 1 := rfl
  have e2 : (1 : BitVec 3).toNat = 1 := rfl
  have e3 : (0 : BitVec 3).toNat = 0 := rfl
  unfold BitReader.advance
  split
  · rename_i h
    have hb : br.bit.toNat = 7 := by rw [h]; rfl
    refine BitReader.ext_fields rfl rfl (BitVec.eq_of_toNat_eq ?_) (BitVec.eq_of_toNat_eq ?_) rfl rfl <;>
      simp only [BitReader.setConsumed, BitReader.consumed, BitVec.toNat_ofNat, BitVec.toNat_add, hb, e1, e3] <;> omega
  · rename_i h
    have hb : br.bit.toNat ≠ 7 := fun e => h (BitVec.eq_of_toNat_eq e)
    refine BitReader.ext_fields rfl rfl (BitVec.eq_of_toNat_eq ?_) (BitVec.eq_of_toNat_eq ?_) rfl rfl <;>
      simp only [BitReader.setConsumed, BitReader.consumed, BitVec.toNat_ofNat, BitVec.toNat_add, e2] <;> omega

/-- n advances consume n bits: the two forms of the cursor that R41 allows agree. -/
theorem BitReader.advance_iterate (n : Nat) (br : BitReader) :
    BitReader.advance^[n] br = br.setConsumed (br.consumed + n) := by
  induction n with
  | zero => simp
  | succ n ih =>
    rw [Function.iterate_succ_apply', ih, BitReader.advance_eq, BitReader.consumed_setConsumed,
      BitReader.setConsumed_setConsumed, ← BitReader.setConsumed_mod, Nat.mod_add_mod, BitReader.setConsumed_mod,
      Nat.add_assoc]

/-- n bits give a value below 2^n. -/
theorem bitsValue_lt (bit : Nat → Bool) (t n : Nat) : bitsValue bit t n < 2 ^ n := by
  induction n with
  | zero => simp [bitsValue]
  | succ n ih =>
    have : (bit (t + n)).toNat ≤ 1 := Bool.toNat_le _
    simp only [bitsValue, Nat.pow_succ]
    omega

/-- The first bit read is the most significant (R65). -/
theorem bitsValue_testBit (bit : Nat → Bool) (t n j : Nat) (h : j < n) :
    (bitsValue bit t n).testBit (n - 1 - j) = bit (t + j) := by
  induction n with
  | zero => omega
  | succ n ih =>
    simp only [bitsValue]
    by_cases hj : j = n
    · subst hj
      rw [show j + 1 - 1 - j = 0 by omega, Nat.testBit_zero]
      cases bit (t + j) <;> simp
    · rw [show n + 1 - 1 - j = (n - 1 - j) + 1 by omega, Nat.testBit_succ]
      have : (2 * bitsValue bit t n + (bit (t + n)).toNat) / 2 = bitsValue bit t n := by
        have : (bit (t + n)).toNat ≤ 1 := Bool.toNat_le _
        omega
      rw [this]
      exact ih (by omega)

/-- The value depends on its bits alone. -/
theorem bitsValue_congr {bit bit' : Nat → Bool} {t n : Nat} (h : ∀ j, j < n → bit (t + j) = bit' (t + j)) :
    bitsValue bit t n = bitsValue bit' t n := by
  induction n with
  | zero => rfl
  | succ n ih => simp only [bitsValue, ih (fun j hj => h j (by omega)), h n (by omega)]

/-- What counting the leading zeros can do (R124). -/
theorem ueZeros_cases (bit : Nat → Bool) (avail k f : Nat) :
    (∃ z, ueZeros bit avail k f = .ok z ∧ k ≤ z ∧ z ≤ k + f ∧ z < avail ∧
        (∀ j, k ≤ j → j < z → bit j = false) ∧ bit z = true) ∨
    (ueZeros bit avail k f = .error .truncatedExpGolombCode ∧ avail ≤ k + f ∧
        ∀ j, k ≤ j → j < avail → bit j = false) ∨
    (ueZeros bit avail k f = .error .expGolombOverflow ∧ k + f < avail ∧
        ∀ j, k ≤ j → j ≤ k + f → bit j = false) := by
  induction f generalizing k with
  | zero =>
    simp only [ueZeros]
    by_cases h : avail ≤ k
    · exact Or.inr (Or.inl ⟨by rw [if_pos h], by omega, fun j h1 h2 => by omega⟩)
    · by_cases hb : bit k = true
      · exact Or.inl ⟨k, by rw [if_neg h, if_pos hb], by omega, by omega, by omega,
          fun j h1 h2 => by omega, hb⟩
      · refine Or.inr (Or.inr ⟨by rw [if_neg h, if_neg hb], by omega, fun j h1 h2 => ?_⟩)
        rw [show j = k by omega]
        simpa using hb
  | succ f ih =>
    simp only [ueZeros]
    by_cases h : avail ≤ k
    · exact Or.inr (Or.inl ⟨by rw [if_pos h], by omega, fun j h1 h2 => by omega⟩)
    · by_cases hb : bit k = true
      · exact Or.inl ⟨k, by rw [if_neg h, if_pos hb], by omega, by omega, by omega,
          fun j h1 h2 => by omega, hb⟩
      · rw [if_neg h, if_neg hb]
        have hk : bit k = false := by simpa using hb
        rcases ih (k + 1) with ⟨z, h1, h2, h3, h4, h5, h6⟩ | ⟨h1, h2, h3⟩ | ⟨h1, h2, h3⟩
        · refine Or.inl ⟨z, h1, by omega, by omega, h4, fun j hj1 hj2 => ?_, h6⟩
          by_cases e : j = k
          · rw [e]; exact hk
          · exact h5 j (by omega) hj2
        · refine Or.inr (Or.inl ⟨h1, by omega, fun j hj1 hj2 => ?_⟩)
          by_cases e : j = k
          · rw [e]; exact hk
          · exact h3 j (by omega) hj2
        · refine Or.inr (Or.inr ⟨h1, by omega, fun j hj1 hj2 => ?_⟩)
          by_cases e : j = k
          · rw [e]; exact hk
          · exact h3 j (by omega) (by omega)

/-- What `ue()` can do (R124): a code, or one of the three data errors. -/
theorem readUe_cases (bit : Nat → Bool) (avail : Nat) :
    (∃ k, readUe bit avail = .ok (2 ^ k - 1 + bitsValue bit (k + 1) k, 2 * k + 1) ∧ k ≤ 31 ∧ 2 * k + 1 ≤ avail ∧
        (∀ j, j < k → bit j = false) ∧ bit k = true) ∨
    (∃ k, readUe bit avail = .error .unexpectedEndOfUnit ∧ k ≤ 31 ∧ k < avail ∧ avail < 2 * k + 1 ∧
        (∀ j, j < k → bit j = false) ∧ bit k = true) ∨
    (readUe bit avail = .error .truncatedExpGolombCode ∧ avail ≤ 31 ∧ ∀ j, j < avail → bit j = false) ∨
    (readUe bit avail = .error .expGolombOverflow ∧ 32 ≤ avail ∧ ∀ j, j < 32 → bit j = false) := by
  rcases ueZeros_cases bit avail 0 ueMaxLz with ⟨z, h1, _, h3, h4, h5, h6⟩ | ⟨h1, h2, h3⟩ | ⟨h1, h2, h3⟩
  · have hz : z ≤ 31 := by simpa [ueMaxLz] using h3
    by_cases hs : avail - (z + 1) < z
    · exact Or.inr (Or.inl ⟨z, by simp only [readUe, h1, if_pos hs], hz, h4, by omega, fun j => h5 j (by omega), h6⟩)
    · exact Or.inl ⟨z, by simp only [readUe, h1, if_neg hs], hz, by omega, fun j => h5 j (by omega), h6⟩
  · exact Or.inr (Or.inr (Or.inl ⟨by simp only [readUe, h1], by simpa [ueMaxLz] using h2, fun j => h3 j (by omega)⟩))
  · refine Or.inr (Or.inr (Or.inr ⟨by simp only [readUe, h1], ?_, fun j hj => h3 j (by omega) ?_⟩))
    · simp only [ueMaxLz] at h2; omega
    · simp only [ueMaxLz]; omega

/-- What `read_bits(n)` can do (R123). -/
theorem readFixed_cases (n : Nat) (bit : Nat → Bool) (avail : Nat) :
    (readFixed n bit avail = .ok (bitsValue bit 0 n, n) ∧ n ≤ avail) ∨
    (readFixed n bit avail = .error .unexpectedEndOfUnit ∧ avail < n) := by
  unfold readFixed
  by_cases h : avail < n
  · exact Or.inr ⟨by rw [if_pos h], h⟩
  · exact Or.inl ⟨by rw [if_neg h], by omega⟩

/-- What a read command can do: in READY what its decoder answers, else ReaderNotReady (R120). Its only writes are
RESULT and the cursor. -/
theorem State.readCommand_cases (s : State) (dec : (Nat → Bool) → Nat → Except ErrorCode (Nat × Nat))
    (f : Nat → Word) :
    (s.br.state ≠ .ready ∧ s.readCommand dec f = .error .readerNotReady) ∨
    (s.br.state = .ready ∧ ∃ e, dec s.streamBit s.br.remaining = .error e ∧ s.readCommand dec f = .error e) ∨
    (s.br.state = .ready ∧ ∃ v used, dec s.streamBit s.br.remaining = .ok (v, used) ∧
      s.readCommand dec f =
        .ok { s with result := f v, br := s.br.setConsumed (s.br.consumed + used) }) := by
  unfold State.readCommand
  by_cases h : s.br.state = .ready
  · rw [if_pos h]
    cases hd : dec s.streamBit s.br.remaining with
    | error e => exact Or.inr (Or.inl ⟨h, e, rfl, rfl⟩)
    | ok p => exact Or.inr (Or.inr ⟨h, p.1, p.2, rfl, rfl⟩)
  · exact Or.inl ⟨h, by rw [if_neg h]⟩

end Sys2Proof.Machine
end

