-- ==== Sys2Proof/Laws/Scan.lean ====
section
/-! SUPPORT. The laws of SCAN: what a probe sees, where start codes are found, and the units they open. -/

namespace Sys2Proof.Machine

/-- A start code has 3 or 4 bytes. -/
theorem startCodeLength_some {b0 b1 b2 b3 : Byte} {c : Nat} (h : startCodeLength b0 b1 b2 b3 = some c) :
    (c = 3 ∧ b0 = 0x00 ∧ b1 = 0x00 ∧ b2 = 0x01) ∨
      (c = 4 ∧ b0 = 0x00 ∧ b1 = 0x00 ∧ b2 = 0x00 ∧ b3 = 0x01) := by
  unfold startCodeLength at h
  split at h
  · cases h; exact Or.inl ⟨rfl, ‹_›⟩
  · split at h
    · cases h; exact Or.inr ⟨rfl, ‹_›⟩
    · cases h

/-- One turn of the scan's loop (R160). -/
theorem findStartCodes_succ (rd : Nat → Nat → Byte) (margin len fuel i : Nat) :
    findStartCodes rd margin len (fuel + 1) i =
      if i + margin ≤ len then
        match probe rd i with
        | some c => { index := i, codeLen := c } :: findStartCodes rd margin len fuel (i + c)
        | none => findStartCodes rd margin len fuel (i + 1)
      else [] := rfl

/-- Past the margin no position is probed. -/
theorem findStartCodes_stop (rd : Nat → Nat → Byte) {margin len i : Nat} (h : len < i + margin) (fuel : Nat) :
    findStartCodes rd margin len fuel i = [] := by
  cases fuel with
  | zero => rfl
  | succ f => rw [findStartCodes_succ, if_neg (by omega)]

/-- The bound on the number of probes is never what ends a scan: any two bounds that reach the end agree (R172). -/
theorem findStartCodes_fuel (rd : Nat → Nat → Byte) (margin len : Nat) :
    ∀ f g i, len < i + f → len < i + g →
      findStartCodes rd margin len f i = findStartCodes rd margin len g i := by
  intro f
  induction f with
  | zero =>
    intro g i hf _
    rw [findStartCodes_stop rd (by omega) g]; rfl
  | succ f ih =>
    intro g i hf hg
    cases g with
    | zero => rw [findStartCodes_stop rd (by omega) (f + 1)]; rfl
    | succ g =>
      rw [findStartCodes_succ, findStartCodes_succ]
      split
      · cases hp : probe rd i with
        | none => exact ih g (i + 1) (by omega) (by omega)
        | some c =>
          have hc : c = 3 ∨ c = 4 := (startCodeLength_some hp).imp And.left And.left
          simp only [ih g (i + c) (by omega) (by omega)]
      · rfl

/-- Every start code found is at a probed position, from where the scan began on, and is 3 or 4 bytes long. -/
theorem findStartCodes_mem {rd : Nat → Nat → Byte} {margin len : Nat} :
    ∀ {fuel i : Nat} {c : StartCode}, c ∈ findStartCodes rd margin len fuel i →
      i ≤ c.index ∧ c.index + margin ≤ len ∧ (c.codeLen = 3 ∨ c.codeLen = 4) ∧
        probe rd c.index = some c.codeLen := by
  intro fuel
  induction fuel with
  | zero => intro i c h; exact absurd h (List.not_mem_nil)
  | succ f ih =>
    intro i c h
    rw [findStartCodes_succ] at h
    split at h
    · rename_i hi
      cases hp : probe rd i with
      | none =>
        rw [hp] at h
        obtain ⟨h1, h2⟩ := ih h
        exact ⟨by omega, h2⟩
      | some k =>
        rw [hp] at h
        have hk : k = 3 ∨ k = 4 := (startCodeLength_some hp).imp And.left And.left
        rcases List.mem_cons.mp h with rfl | h
        · exact ⟨Nat.le_refl _, hi, hk, hp⟩
        · obtain ⟨h1, h2⟩ := ih h
          exact ⟨by omega, h2⟩
    · exact absurd h (List.not_mem_nil)

/-- The start codes found are in order and do not overlap (R162). -/
theorem findStartCodes_pairwise (rd : Nat → Nat → Byte) (margin len : Nat) :
    ∀ fuel i, (findStartCodes rd margin len fuel i).Pairwise (fun a b => a.index + a.codeLen ≤ b.index) := by
  intro fuel
  induction fuel with
  | zero => intro i; exact List.Pairwise.nil
  | succ f ih =>
    intro i
    rw [findStartCodes_succ]
    split
    · cases hp : probe rd i with
      | none => exact ih (i + 1)
      | some c => exact List.pairwise_cons.mpr ⟨fun d hd => (findStartCodes_mem hd).1, ih (i + c)⟩
    · exact List.Pairwise.nil

/-- A scan looks at nothing outside its range: ranges that read alike have the same start codes (R161, R168). -/
theorem findStartCodes_congr {rd rd' : Nat → Nat → Byte} {margin len : Nat} (hm : 4 ≤ margin)
    (h : ∀ k j, j < len → rd k j = rd' k j) :
    ∀ fuel i, findStartCodes rd margin len fuel i = findStartCodes rd' margin len fuel i := by
  intro fuel
  induction fuel with
  | zero => intro i; rfl
  | succ f ih =>
    intro i
    rw [findStartCodes_succ, findStartCodes_succ]
    split
    · have hp : probe rd i = probe rd' i := by
        unfold probe
        rw [h _ i (by omega), h _ (i + 1) (by omega), h _ (i + 2) (by omega), h _ (i + 3) (by omega)]
      rw [hp]
      split
      · rw [ih]
      · exact ih _
    · rfl

/-- A unit's header is a byte of the range, so ranges that read alike have the same units (R162, R164). -/
theorem unitsOf_congr {rd rd' : Nat → Nat → Byte} {len : Nat} (h : ∀ k j, j < len → rd k j = rd' k j) :
    ∀ (codes : List StartCode) (n : Nat), (∀ c ∈ codes, c.index ≤ len) →
      unitsOf rd len n codes = unitsOf rd' len n codes := by
  intro codes
  induction codes with
  | nil => intro n _; rfl
  | cons c rest ih =>
    intro n hc
    have hend : unitEnd len rest ≤ len := by
      cases rest with
      | nil => exact Nat.le_refl _
      | cons d _ => exact hc d (List.mem_cons_of_mem _ List.mem_cons_self)
    simp only [unitsOf]
    rw [ih _ (fun d hd => hc d (List.mem_cons_of_mem _ hd))]
    congr 1
    unfold unitEntry
    split
    · rw [h _ _ (by omega)]
    · rfl

/-- There are exactly as many units as start codes (R162). -/
@[simp] theorem unitsOf_length (rd : Nat → Nat → Byte) (len j : Nat) (codes : List StartCode) :
    (unitsOf rd len j codes).length = codes.length := by
  induction codes generalizing j with
  | nil => rfl
  | cons c rest ih => simp [unitsOf, ih]

/-- The end of a unit, by index. -/
theorem unitEnd_drop (len : Nat) (codes : List StartCode) (k : Nat) :
    unitEnd len (codes.drop k) = (codes[k]?.map StartCode.index).getD len := by
  cases h : codes.drop k with
  | nil =>
    have : codes.length ≤ k := List.drop_eq_nil_iff.mp h
    simp [unitEnd, this]
  | cons c rest =>
    have : codes[k]? = some c := by
      rw [← List.head?_drop, h]; rfl
    simp [unitEnd, this]

/-- The k-th unit is the one that the k-th start code opens (R162). -/
theorem unitsOf_getElem? (rd : Nat → Nat → Byte) (len : Nat) (codes : List StartCode) :
    ∀ j k, (unitsOf rd len j codes)[k]? =
      codes[k]?.map (fun c =>
        unitEntry rd (4 * len + (j + k)) (c.index + c.codeLen) (unitEnd len (codes.drop (k + 1)))) := by
  induction codes with
  | nil => intro j k; simp [unitsOf]
  | cons c rest ih =>
    intro j k
    cases k with
    | zero => simp [unitsOf]
    | succ k =>
      simp only [unitsOf, List.getElem?_cons_succ, ih, List.drop_succ_cons]
      rw [show j + 1 + k = j + (k + 1) by omega]

/-- The table after a SCAN: the new units, then the stale entries (R47). -/
theorem scanned_table_getElem? (new old : List UnitEntry) (k : Nat) :
    (new ++ old.drop new.length)[k]? = if k < new.length then new[k]? else old[k]? := by
  split
  · rename_i h; exact List.getElem?_append_left h
  · rename_i h
    rw [List.getElem?_append_right (by omega), List.getElem?_drop]
    congr 1
    omega

/-- LAST_SC is the index of the last code (R165). -/
theorem lastStart_of_getLast? {codes : List StartCode} {c : StartCode} (h : codes.getLast? = some c) :
    lastStart codes = BitVec.ofNat 32 c.index := by
  simp [lastStart, h]

@[simp] theorem lastStart_nil : lastStart [] = noneWord := rfl

/-- What SCAN's body can do (R160): one of its two errors, or its writes. -/
theorem State.scanRange_cases (s : State) :
    (s.config.ibufBytes < s.argOff + s.argLen ∧ s.scanRange = .error .operandRange) ∨
    (s.argOff + s.argLen ≤ s.config.ibufBytes ∧ s.config.utabDepth < s.startCodes.length ∧
      s.scanRange = .error .unitTableFull) ∨
    (s.argOff + s.argLen ≤ s.config.ibufBytes ∧ s.startCodes.length ≤ s.config.utabDepth ∧
      s.scanRange = .ok { s with
        utab := s.scanUnits ++ s.utab.drop s.scanUnits.length
        unitCount := BitVec.ofNat 32 s.startCodes.length
        lastSc := lastStart s.startCodes
        status := s.status.scanned (decide (s.argLen < s.config.scanMargin)) s.startCodes.isEmpty }) := by
  unfold State.scanRange
  by_cases h1 : s.config.ibufBytes < s.argOff + s.argLen
  · exact Or.inl ⟨h1, by rw [if_pos h1]⟩
  · by_cases h2 : s.config.utabDepth < s.startCodes.length
    · exact Or.inr (Or.inl ⟨by omega, h2, by rw [if_neg h1, if_pos h2]⟩)
    · exact Or.inr (Or.inr ⟨by omega, by omega, by rw [if_neg h1, if_neg h2]⟩)

end Sys2Proof.Machine
end

