-- ==== Sys2Proof/Laws/Strip.lean ====
section
/-! SUPPORT. The laws of STRIP: what is left out, and what its body can do. -/

namespace Sys2Proof.Machine

/-- The conditions of R191, one by one. -/
theorem isEmulationByte_iff (rd : Nat → Nat → Byte) (len i : Nat) :
    isEmulationByte rd len i = true ↔
      rd (5 * i) i = 0x03 ∧ 2 ≤ i ∧ rd (5 * i + 1) (i - 2) = 0x00 ∧ rd (5 * i + 2) (i - 1) = 0x00 ∧
        (i + 1 = len ∨ (rd (5 * i + 3) (i + 1)).toNat ≤ 0x03) := by
  simp only [isEmulationByte, Bool.and_eq_true, Bool.or_eq_true, beq_iff_eq, decide_eq_true_eq, and_assoc]

/-- The output is the copies of the kept indices, in order (R192). -/
theorem strippedBytes_eq_map (rd : Nat → Nat → Byte) (len : Nat) :
    strippedBytes rd len =
      ((List.range len).filter (fun i => !isEmulationByte rd len i)).map (fun i => rd (5 * i + 4) i) := by
  unfold strippedBytes
  induction List.range len with
  | nil => rfl
  | cons a l ih =>
    simp only [List.filterMap_cons, List.filter_cons, keptByte]
    cases isEmulationByte rd len a <;> simp [← ih, keptByte]

/-- The output is never longer than the input (R193). -/
theorem strippedBytes_length_le (rd : Nat → Nat → Byte) (len : Nat) : (strippedBytes rd len).length ≤ len := by
  have h := List.length_filterMap_le (keptByte rd len) (List.range len)
  rwa [List.length_range] at h

/-- What STRIP's body can do (R190): an error for either range, or its writes. -/
theorem State.stripRange_cases (s : State) :
    ((s.config.ibufBytes < s.argOff + s.argLen ∨ s.config.obufBytes < s.argLen) ∧
      s.stripRange = .error .operandRange) ∨
    (s.argOff + s.argLen ≤ s.config.ibufBytes ∧ s.argLen ≤ s.config.obufBytes ∧
      s.stripRange = .ok { s with
        obuf := s.obuf.writeBytes 0 (strippedBytes s.rangeByte s.argLen)
        outLen := BitVec.ofNat 32 (strippedBytes s.rangeByte s.argLen).length }) := by
  unfold State.stripRange
  by_cases h1 : s.config.ibufBytes < s.argOff + s.argLen
  · exact Or.inl ⟨Or.inl h1, by rw [if_pos h1]⟩
  · by_cases h2 : s.config.obufBytes < s.argLen
    · exact Or.inl ⟨Or.inr h2, by rw [if_neg h1, if_pos h2]⟩
    · exact Or.inr ⟨by omega, by omega, by rw [if_neg h1, if_neg h2]⟩

end Sys2Proof.Machine
end

