-- ==== Sys2Proof/Laws/Commands.lean ====
section
/-! SUPPORT. What one command can do: every meaning is a completion (R212), of an error (R224) or of its writes. -/

namespace Sys2Proof.Machine

@[simp] theorem State.complete_ok (s t : State) (k : Nat) : s.complete k (.ok t) = t.succeed.spend k := rfl

@[simp] theorem State.complete_error (s : State) (k : Nat) (e : ErrorCode) :
    s.complete k (.error e) = (s.raise e).spend k := rfl

/-- BR_INIT's body (R121). -/
def brInitBody (src : Source) (s : State) : Except ErrorCode State :=
  if s.capacity src < s.argOff + s.argLen then .error .operandRange else .ok { s with br := s.initialReader src }

/-- RDBITS's body (R123). -/
def rdbitsBody (n : Nat) (s : State) : Except ErrorCode State :=
  if maxReadBits < n then .error .operandRange else s.readCommand (readFixed n) unsignedResult

/-- What a command computes before its completion (R11): its writes or an error. -/
def commandBody : Instr → State → Except ErrorCode State
  | .nop, s        => .ok s
  | .scan, s       => s.scanRange
  | .strip, s      => s.stripRange
  | .brInit src, s => brInitBody src s
  | .rdbit, s      => s.readCommand (readFixed 1) unsignedResult
  | .rdbits n, s   => rdbitsBody n s
  | .rdue, s       => s.readCommand readUe unsignedResult
  | .rdse, s       => s.readCommand readUe signedResult

/-- The draws a command can use. -/
def commandDraws : Instr → State → Nat
  | .nop, _       => 0
  | .scan, s      => scanDraws s.argLen
  | .strip, s     => stripDraws s.argLen
  | .brInit _, _  => 0
  | .rdbit, _     => 1
  | .rdbits n, _  => rdbitsDraws n
  | .rdue, _      => ueMaxBits
  | .rdse, _      => ueMaxBits

/-- Every command completes (R214): its meaning is the completion of its body. -/
theorem exec_eq_complete (i : Instr) (s : State) :
    exec i s = .next (s.complete (commandDraws i s) (commandBody i s)) := by
  cases i <;> rfl

/-- What no command's body writes: the parameters, the operand registers (R29), IBUF (R61), the latch, and what is outside
ANFE. -/
theorem commandBody_keeps {i : Instr} {s t : State} (h : commandBody i s = .ok t) :
    t.config = s.config ∧ t.arg0 = s.arg0 ∧ t.arg1 = s.arg1 ∧ t.ibuf = s.ibuf ∧ t.latch = s.latch ∧
      t.inputs = s.inputs ∧ t.readData = s.readData ∧ t.draws = s.draws ∧
        t.stream = s.stream ∧ t.resets = s.resets := by
  have hread : ∀ dec f, s.readCommand dec f = .ok t →
      t.config = s.config ∧ t.arg0 = s.arg0 ∧ t.arg1 = s.arg1 ∧ t.ibuf = s.ibuf ∧ t.latch = s.latch ∧
        t.inputs = s.inputs ∧ t.readData = s.readData ∧ t.draws = s.draws ∧
        t.stream = s.stream ∧ t.resets = s.resets := by
    intro dec f h
    rcases s.readCommand_cases dec f with ⟨_, h1⟩ | ⟨_, e, _, h1⟩ | ⟨_, v, used, _, h1⟩ <;> rw [h1] at h <;> cases h
    exact ⟨rfl, rfl, rfl, rfl, rfl, rfl, rfl, rfl, rfl, rfl⟩
  cases i with
  | nop => cases h; exact ⟨rfl, rfl, rfl, rfl, rfl, rfl, rfl, rfl, rfl, rfl⟩
  | scan =>
    change s.scanRange = .ok t at h
    rcases s.scanRange_cases with ⟨_, h1⟩ | ⟨_, _, h1⟩ | ⟨_, _, h1⟩ <;> rw [h1] at h <;> cases h
    exact ⟨rfl, rfl, rfl, rfl, rfl, rfl, rfl, rfl, rfl, rfl⟩
  | strip =>
    change s.stripRange = .ok t at h
    rcases s.stripRange_cases with ⟨_, h1⟩ | ⟨_, _, h1⟩ <;> rw [h1] at h <;> cases h
    exact ⟨rfl, rfl, rfl, rfl, rfl, rfl, rfl, rfl, rfl, rfl⟩
  | brInit src =>
    simp only [commandBody, brInitBody] at h
    split at h <;> cases h
    exact ⟨rfl, rfl, rfl, rfl, rfl, rfl, rfl, rfl, rfl, rfl⟩
  | rdbit => exact hread _ _ h
  | rdbits n =>
    simp only [commandBody, rdbitsBody] at h
    split at h
    · cases h
    · exact hread _ _ h
  | rdue => exact hread _ _ h
  | rdse => exact hread _ _ h

end Sys2Proof.Machine
end

