-- ==== Sys2Proof/Laws/Bus.lean ====
section
/-! SUPPORT. What a host access and a step can do. -/

namespace Sys2Proof.Machine

/-- An access that passes goes to one region, is of an accepted width and alignment, and lies inside the region (R64). -/
theorem checkAccess_ok {c : Config} {t : BusTarget} {bytes : Nat} {r : Region} {off : Nat}
    (h : checkAccess c t bytes = .ok (r, off)) :
    resolve c t = some (r, off) ∧ accepted r off bytes = true ∧ off + bytes ≤ c.size r := by
  unfold checkAccess at h
  split at h
  · cases h
  · rename_i r' off' hr
    split at h
    · split at h
      · cases h; exact ⟨hr, ‹_›, ‹_›⟩
      · cases h
    · cases h

/-- What a host read can do: a bus fault, or a value for the host and no other effect (R64, R69). -/
theorem hostRead_cases (t : BusTarget) (bytes : Nat) (s : State) :
    (∃ f, checkAccess s.config t bytes = .error f ∧ hostRead t bytes s = .fault (.busFault f)) ∨
    (∃ r off, checkAccess s.config t bytes = .ok (r, off) ∧
      hostRead t bytes s = .next ({ s with readData := some (s.busValue r off bytes) }.spend busDraws)) := by
  unfold hostRead
  cases h : checkAccess s.config t bytes with
  | error f => exact Or.inl ⟨f, rfl, rfl⟩
  | ok p => exact Or.inr ⟨p.1, p.2, rfl, rfl⟩

/-- What a host write can do: a bus fault (R64), a protocol violation (R270), or its effect (R61). -/
theorem hostWrite_cases (t : BusTarget) (bytes : Nat) (v : Word) (s : State) :
    (∃ f, checkAccess s.config t bytes = .error f ∧ hostWrite t bytes v s = .fault (.busFault f)) ∨
    (∃ r off, checkAccess s.config t bytes = .ok (r, off) ∧
      ((s.status.busy = true ∧ hostWrite t bytes v s = .fault .hostWriteWhileBusy) ∨
       (s.status.busy = false ∧ hostWrite t bytes v s = .next (s.busStore r off bytes v)))) := by
  unfold hostWrite
  cases h : checkAccess s.config t bytes with
  | error f => exact Or.inl ⟨f, rfl, rfl⟩
  | ok p =>
    refine Or.inr ⟨p.1, p.2, rfl, ?_⟩
    cases s.status.busy
    · exact Or.inr ⟨rfl, rfl⟩
    · exact Or.inl ⟨rfl, rfl⟩

/-- A write stores as many bytes as it is wide. -/
@[simp] theorem wordBytes_length (bytes : Nat) (v : Word) : (wordBytes bytes v).length = bytes := by
  simp [wordBytes]

/-- What the engine can do: nothing with an empty latch (R215), the completion of an error of decode, or of the command
(R212). -/
theorem engineStep_cases (s : State) :
    (s.latch = none ∧ engineStep s = .next s) ∨
    (∃ w e, s.latch = some w ∧ decode w = .error e ∧ engineStep s = .next ((s.raise e).spend 0)) ∨
    (∃ w i, s.latch = some w ∧ decode w = .ok i ∧
      engineStep s = .next (s.complete (commandDraws i s) (commandBody i s))) := by
  unfold engineStep
  cases h : s.latch with
  | none => exact Or.inl ⟨rfl, rfl⟩
  | some w =>
    cases hd : decode w with
    | error e => exact Or.inr (Or.inl ⟨w, e, rfl, hd, by simp [hd]⟩)
    | ok i => exact Or.inr (Or.inr ⟨w, i, rfl, hd, by simp [hd, exec_eq_complete]⟩)

/-- A step is one of: the engine's, a host access, a poll, a reset (R71). -/
theorem step_cases (s : State) :
    (s.inputs = [] ∧ step s = engineStep s) ∨
    (∃ rest, s.inputs = .engine :: rest ∧ step s = engineStep { s with inputs := rest }) ∨
    (∃ t bytes rest, s.inputs = .read t bytes :: rest ∧ step s = hostRead t bytes { s with inputs := rest }) ∨
    (∃ t bytes v rest, s.inputs = .write t bytes v :: rest ∧ step s = hostWrite t bytes v { s with inputs := rest }) ∨
    (∃ rest, s.inputs = .wait :: rest ∧ step s = waitStep rest s) ∨
    (∃ rest, s.inputs = .reset :: rest ∧ step s = .next (resetStep { s with inputs := rest })) := by
  unfold step takeTurn
  cases h : s.inputs with
  | nil => exact Or.inl ⟨rfl, rfl⟩
  | cons x rest =>
    cases x with
    | engine => exact Or.inr (Or.inl ⟨rest, rfl, rfl⟩)
    | read t b => exact Or.inr (Or.inr (Or.inl ⟨t, b, rest, rfl, rfl⟩))
    | write t b v => exact Or.inr (Or.inr (Or.inr (Or.inl ⟨t, b, v, rest, rfl, rfl⟩)))
    | wait => exact Or.inr (Or.inr (Or.inr (Or.inr (Or.inl ⟨rest, rfl, rfl⟩))))
    | reset => exact Or.inr (Or.inr (Or.inr (Or.inr (Or.inr ⟨rest, rfl, rfl⟩))))

/-- The step of an accepted host read: the host has its value, and nothing else changes (R69). -/
theorem step_read {s : State} {t : BusTarget} {bytes off : Nat} {r : Region} {rest : List Input}
    (hi : s.inputs = .read t bytes :: rest) (h : checkAccess s.config t bytes = .ok (r, off)) :
    step s = .next ({ s with inputs := rest, readData := some (s.busValue r off bytes) }.spend busDraws) := by
  unfold step takeTurn
  rw [hi]
  simp only [hostRead, h]
  cases r <;> rfl

end Sys2Proof.Machine
end

