-- ==== Sys2Proof/Laws/PerInstr.lean ====
section
/-! SUPPORT. Statements made once per command. EncodedInRow: a command's word lies in its row of the opcode map (R96). -/

namespace Sys2Proof.Laws

/-- The word of a well-formed command is selected by the command's own row: `w & mask = match` (R96). -/
def EncodedInRow.Statement (i : Instr) : Prop :=
  i.wf = true → encode i &&& i.row.mask = i.row.matchWord

theorem EncodedInRow.nop : EncodedInRow.Statement .nop := fun _ => by decide
theorem EncodedInRow.scan : EncodedInRow.Statement .scan := fun _ => by decide
theorem EncodedInRow.strip : EncodedInRow.Statement .strip := fun _ => by decide
theorem EncodedInRow.brInit (src : Source) : EncodedInRow.Statement (.brInit src) := fun _ => by
  cases src <;> decide
theorem EncodedInRow.rdbit : EncodedInRow.Statement .rdbit := fun _ => by decide
theorem EncodedInRow.rdbits (n : Nat) : EncodedInRow.Statement (.rdbits n) := by
  intro h
  have hn : n < 64 := by simpa [Instr.wf] using h
  interval_cases n <;> decide
theorem EncodedInRow.rdue : EncodedInRow.Statement .rdue := fun _ => by decide
theorem EncodedInRow.rdse : EncodedInRow.Statement .rdse := fun _ => by decide

end Sys2Proof.Laws
end

