-- ==== Sys2Proof/Laws/Platform.lean ====
section
/-! SUPPORT. What an access at a bus address is, what a step keeps, and what a step of a platform can do. -/

namespace Sys2Proof.Machine

/-- In a valid build a bus address inside a region names that region's offset (R60). -/
theorem resolve_address {c : Config} (hc : c.Valid) {r : Region} {off : Nat} (h : off < c.size r) :
    resolve c (.address (c.base r + off)) = some (r, off) := by
  obtain ⟨_, _, _, _, h1, h2, h3, h4, h5, h6⟩ := hc
  unfold Config.Apart at h1 h2 h3 h4 h5 h6
  simp only [resolve, regionOffset]
  cases r
  · rw [if_pos (by omega)]; simp
  · rw [if_neg (by omega), if_pos (by omega)]; simp
  · rw [if_neg (by omega), if_neg (by omega), if_pos (by omega)]; simp
  · rw [if_neg (by omega), if_neg (by omega), if_neg (by omega), if_pos (by omega)]; simp

/-- An address outside every region resolves to nothing (R64). -/
theorem resolve_outside {c : Config} {a : Nat} (h : ∀ r, a < c.base r ∨ c.base r + c.size r ≤ a) :
    resolve c (.address a) = none := by
  have h1 : ∀ r, regionOffset c a r = none := fun r => if_neg (by have := h r; omega)
  simp [resolve, h1]

/-- What resolves lies in the region it resolves to (R60). -/
theorem resolve_address_some {c : Config} {a : Nat} (h : (resolve c (.address a)).isSome = true) :
    ∃ r, c.base r ≤ a ∧ a < c.base r + c.size r := by
  by_contra hn
  have : resolve c (.address a) = none := resolve_outside (fun r => by
    by_contra hr; exact hn ⟨r, by omega, by omega⟩)
  rw [this] at h
  cases h

/-- The completion of a command keeps the parameters and the stream of free values. -/
theorem complete_keeps (i : Instr) (s : State) :
    (s.complete (commandDraws i s) (commandBody i s)).config = s.config ∧
      (s.complete (commandDraws i s) (commandBody i s)).stream = s.stream := by
  cases hb : commandBody i s with
  | error e => exact ⟨rfl, rfl⟩
  | ok t =>
    have k := commandBody_keeps hb
    exact ⟨k.1, k.2.2.2.2.2.2.2.2.1⟩

/-- The engine's step keeps the parameters and the stream of free values. -/
theorem engineStep_keeps {s t : State} (h : engineStep s = .next t) : t.config = s.config ∧ t.stream = s.stream := by
  rcases engineStep_cases s with ⟨_, e⟩ | ⟨_, _, _, _, e⟩ | ⟨_, i, _, _, e⟩ <;> rw [e] at h <;> cases h
  · exact ⟨rfl, rfl⟩
  · exact ⟨rfl, rfl⟩
  · exact complete_keeps i s

/-- An accepted write keeps the parameters and the stream of free values. -/
theorem busStore_keeps (s : State) (r : Region) (off bytes : Nat) (v : Word) :
    (s.busStore r off bytes v).config = s.config ∧ (s.busStore r off bytes v).stream = s.stream := by
  cases r with
  | reg => simp only [State.busStore]; cases regAt off <;> exact ⟨rfl, rfl⟩
  | utab => exact ⟨rfl, rfl⟩
  | ibuf => exact ⟨rfl, rfl⟩
  | obuf => exact ⟨rfl, rfl⟩

/-- No step changes the parameters (R6) or the stream of free values (R246). -/
theorem step_keeps {s t : State} (h : step s = .next t) : t.config = s.config ∧ t.stream = s.stream := by
  rcases step_cases s with ⟨_, e⟩ | ⟨_, _, e⟩ | ⟨g, b, _, _, e⟩ | ⟨g, b, v, _, _, e⟩ | ⟨_, _, e⟩ | ⟨_, _, e⟩ <;> rw [e] at h
  · exact engineStep_keeps h
  · obtain ⟨a, b⟩ := engineStep_keeps h
    exact ⟨a, b⟩
  · rcases hostRead_cases g b _ with ⟨_, _, e⟩ | ⟨_, _, _, e⟩ <;> rw [e] at h <;> cases h
    exact ⟨rfl, rfl⟩
  · rcases hostWrite_cases g b v _ with ⟨_, _, e⟩ | ⟨r, off, _, ⟨_, e⟩ | ⟨_, e⟩⟩ <;> rw [e] at h <;> cases h
    exact busStore_keeps _ r off b v
  · unfold waitStep at h
    split at h
    · cases h; exact ⟨rfl, rfl⟩
    · obtain ⟨a, b⟩ := engineStep_keeps h
      exact ⟨a, b⟩
  · cases h; exact ⟨rfl, rfl⟩

/-- Each instance draws from its own stream (R246). -/
theorem Platform.unit_stream {p : Platform} {k : Nat} {s : State} (h : p.unit k = some s) : s.stream = k := by
  unfold Platform.unit at h
  cases hk : p.units[k]? with
  | none => rw [hk] at h; cases h
  | some u => rw [hk] at h; cases h; rfl

/-- What a step of instance k can do: its own step, which leaves the other instances (R246). -/
theorem Platform.stepOn_cases {p : Platform} {k : Nat} {s : State} (h : p.unit k = some s) (xs : List Input) :
    (∃ t q, Sys2Proof.Machine.step { s with inputs := xs ++ s.inputs } = .next t ∧ p.stepOn k xs = .next q ∧
      q.unit k = some t ∧ ∀ j, j ≠ k → q.unit j = p.unit j) ∨
    (∃ f, Sys2Proof.Machine.step { s with inputs := xs ++ s.inputs } = .fault f ∧ p.stepOn k xs = .fault f) ∨
    (∃ r, Sys2Proof.Machine.step { s with inputs := xs ++ s.inputs } = .refused r ∧ p.stepOn k xs = .refused r) := by
  have hlt : k < p.units.length := by
    by_contra hn
    unfold Platform.unit at h
    rw [List.getElem?_eq_none (by omega)] at h
    cases h
  unfold Platform.stepOn
  simp only [h]
  cases hs : Sys2Proof.Machine.step { s with inputs := xs ++ s.inputs } with
  | next t =>
    refine Or.inl ⟨t, { p with units := p.units.set k t }, rfl, rfl, ?_, fun j hj => ?_⟩
    · have hst : t.stream = s.stream := (step_keeps hs).2
      have hk := Platform.unit_stream h
      simp only [Platform.unit, List.getElem?_set_self hlt, Option.map_some]
      rw [← hk, ← hst]
    · simp only [Platform.unit, List.getElem?_set_ne (Ne.symm hj)]
  | fault f => exact Or.inr (Or.inl ⟨f, rfl, rfl⟩)
  | refused r => exact Or.inr (Or.inr ⟨r, rfl, rfl⟩)

end Sys2Proof.Machine
end

