-- ==== Sys2Proof/Tests/Slice0.lean ====
section
/-! SUPPORT. Tests of one step each, with expected values from the spec's tables (95_test_vectors.md, R96, R100), and the
witnesses: for every statement with hypotheses, states and operands that meet them, clause by clause at the boundaries. -/

namespace Sys2Proof.Tests

open Sys2Proof.Machine Sys2Proof.Claims

/-! ### Helpers -/

/-- The next state of an outcome (reset for a fault or a refusal). -/
def after : Host.Outcome State Fault Refusal → State
  | .next t => t
  | .fault _ | .refused _ => State.reset

/-- The fault of an outcome. -/
def faultOf : Host.Outcome State Fault Refusal → Option Fault
  | .fault f => some f
  | .next _ | .refused _ => none

/-- Bytes stored from offset 0 on. -/
def stored (bs : List Byte) : Memory := Memory.writeBytes [] 0 bs

/-- IBUF holding bytes, with ARG0 and ARG1. -/
def ranged (bs : List Byte) (off len : Word) : State :=
  { State.reset with ibuf := stored bs, arg0 := off, arg1 := len }

/-- A READY reader over the first size bytes of IBUF, at a cursor. -/
def reader (bs : List Byte) (size byte : Word) (bit : BitVec 3) : State :=
  { State.reset with
    ibuf := stored bs
    br := { base := 0, size := size, byte := byte, bit := bit, src := .ibuf, state := .ready } }

/-- The same reader after a data error. -/
def failedReader : State :=
  { State.reset with br := { base := 0, size := 1, byte := 0, bit := 0, src := .ibuf, state := .failed } }

/-- A word in the latch, as its CMD write leaves it, with inputs pending. -/
def latched (w : Word) (xs : List Input) : State := { issued State.reset w with inputs := xs }

/-- Inputs pending on the reset state. -/
def pending (xs : List Input) : State := { State.reset with inputs := xs }

/-- The bytes of the source's worked example V-S1. -/
def exampleStream : List Byte := [0x00, 0x00, 0x01, 0x67, 0xAA, 0x00, 0x00, 0x00, 0x01, 0x68, 0xBB]

/-! ### Well-formedness -/

/-- R92: N has 6 bits, so 64 is refused; and R100: an assembler refuses 33. -/
theorem smoke_wf_refuses_64 : (Instr.rdbits 64).wf = false ∧ (Instr.rdbits 63).wf = true := by decide
theorem smoke_assembles_refuses_33 :
    (Instr.rdbits 33).assembles = false ∧ (Instr.rdbits 32).assembles = true := by decide
/-- A build that differs from the vectors' in IBUF_BYTES, UTAB_DEPTH and REGION_BASE_UTAB. -/
def build (ibuf depth utabBase : Nat) : Config where
  ibufBytes  := ibuf
  obufBytes  := 64
  utabDepth  := depth
  baseReg    := 0x0000
  baseUtab   := utabBase
  baseIbuf   := 0x2000
  baseObuf   := 0x3000
  scanMargin := 4
/-- R6: an IBUF of 3 bytes, a UTAB of no entry, and overlapping regions are refused. -/
theorem smoke_config_refuses :
    ¬ (build 3 4 0x1000).Valid ∧ ¬ (build 64 0 0x1000).Valid ∧ ¬ (build 64 4 0xFF).Valid ∧
      (build 4 4 0x1000).Valid := ⟨by decide, by decide, by decide, by decide⟩

/-! ### Decoding: words written out from R96's patterns (V-D1 to V-D14) -/

theorem test_decode_nop : parse 0b00000000000000000000000000000000 = some .nop := by decide
theorem test_decode_scan : parse 0b00000000000000000000000000000001 = some .scan := by decide
theorem test_decode_strip : parse 0b00000000000000000000000000000010 = some .strip := by decide
theorem test_decode_brinit_ibuf : parse 0b00000000000000000000000000000011 = some (.brInit .ibuf) := by decide
theorem test_decode_brinit_obuf : parse 0b00000000000000010000000000000011 = some (.brInit .obuf) := by decide
theorem test_decode_rdbit : parse 0b00000000000000000000000000000100 = some .rdbit := by decide
theorem test_decode_rdbits_32 : parse 0b00000000000000000010000000000101 = some (.rdbits 32) := by decide
theorem test_decode_rdbits_33 :
    parse 0x00002105 = some (.rdbits 33) ∧ decode 0x00002105 = .error .operandRange := ⟨by decide, rfl⟩
theorem test_decode_rdue : parse 0b00000000000000000000000000000110 = some .rdue := by decide
theorem test_decode_rdse : parse 0b00000000000000000000000000000111 = some .rdse := by decide
theorem test_decode_illegal :
    [0x00000008, 0x000000FF, 0x00004005, 0x00000104, 0x00010001, 0x00020003, 0x80000006, 0x00012105].map parse
      = List.replicate 8 none := by decide
theorem test_table_words :
    decodeTableWord 32 0x00010003 = some (.brInit .obuf) ∧ decodeTableWord 32 0x00003F05 = some (.rdbits 63) := by decide

/-! ### Commands, one step each (95_test_vectors.md sections 1 to 5) -/

/-- V-B47: a NOP clears the error of a failed command and leaves the reader FAILED. -/
theorem test_nop_acknowledges :
    let t := after (exec .nop { failedReader with
      status := { Status.reset with done := true, err := true, errCode := 0x05 } })
    t.status.word t.br.state = 0x00020002 := by decide
/-- V-S1. -/
theorem test_scan_example :
    let t := after (exec .scan (ranged exampleStream 0 11))
    t.unitCount = 2 ∧ t.lastSc = 5 ∧ t.status.word t.br.state = 0x00000002 ∧
      t.utab = [{ dataOff := 3, len := 2, hdr := 0x67 }, { dataOff := 9, len := 2, hdr := 0x68 }] := by decide
/-- V-S12: back-to-back start codes give a zero-length unit. -/
theorem test_scan_empty_unit :
    let t := after (exec .scan (ranged [0x00, 0x00, 0x01, 0x00, 0x00, 0x01, 0x65] 0 7))
    t.utab = [{ dataOff := 3, len := 0, hdr := 0x100 }, { dataOff := 6, len := 1, hdr := 0x65 }] ∧ t.lastSc = 3 := by
  decide
/-- V-E7: the neighbours are input bytes. -/
theorem test_strip_input_neighbours :
    let t := after (exec .strip (ranged [0x00, 0x00, 0x03, 0x03, 0x01] 0 5))
    t.obuf = stored [0x00, 0x00, 0x03, 0x01] ∧ t.outLen = 4 := by decide
/-- V-E16: the byte before the range is not looked at. -/
theorem test_strip_range_edge :
    let t := after (exec .strip (ranged [0x00, 0x00, 0x00, 0x00, 0x00, 0x00, 0x03, 0x01] 5 3))
    t.obuf = stored [0x00, 0x03, 0x01] ∧ t.outLen = 3 := by decide
/-- V-B45: the sum of base and size does not wrap. -/
theorem test_brinit_no_wrap :
    let t := after (exec (.brInit .ibuf) { State.reset with arg0 := 0xFFFFFFFF, arg1 := 2 })
    t.status.word t.br.state = 0x00000206 ∧ t.br = BitReader.reset := by decide
/-- V-B42. -/
theorem test_brinit_at_end :
    (after (exec (.brInit .ibuf) { State.reset with arg0 := 60, arg1 := 4 })).br =
      { base := 60, size := 4, byte := 0, bit := 0, src := .ibuf, state := .ready } := by decide
/-- V-B3: the eighth bit of A5 moves the cursor to the next byte. -/
theorem test_rdbit_eighth :
    let t := after (exec .rdbit (reader [0xA5] 1 0 7))
    t.result = 1 ∧ t.br.byte = 1 ∧ t.br.bit = 0 := by decide
/-- V-B4: the ninth fails. -/
theorem test_rdbit_past_end :
    let t := after (exec .rdbit (reader [0xA5] 1 1 0))
    t.status.word t.br.state = 0x00020406 ∧ t.br.byte = 1 := by decide
/-- V-B6: a read that crosses a byte. -/
theorem test_rdbits_crosses :
    let t := after (exec (.rdbits 12) (reader [0xDE, 0xAD] 2 0 4))
    t.result = 0xEAD ∧ t.br.byte = 2 ∧ t.br.bit = 0 := by decide
/-- V-B5: 32 bits, without a sign. -/
theorem test_rdbits_full :
    (after (exec (.rdbits 32) (reader [0xDE, 0xAD, 0xBE, 0xEF] 4 0 0))).result = 0xDEADBEEF := by decide
/-- V-B18. -/
theorem test_rdue_suffix :
    let t := after (exec .rdue (reader [0x01, 0x7F] 2 0 0))
    t.result = 190 ∧ t.br.byte = 1 ∧ t.br.bit = 7 := by decide
/-- V-B23: the 32nd zero overflows, though the slice ends there too. -/
theorem test_rdue_overflow :
    let t := after (exec .rdue (reader [0x00, 0x00, 0x00, 0x00] 4 0 0))
    t.status.word t.br.state = 0x00020606 ∧ t.br.byte = 0 := by decide
/-- V-B34: the most negative value. -/
theorem test_rdse_most_negative :
    (after (exec .rdse (reader [0x00, 0x00, 0x00, 0x01, 0xFF, 0xFF, 0xFF, 0xFE] 8 0 0))).result = 0x80000001 := by
  decide
/-- V-B31. -/
theorem test_rdse_minus_three :
    let t := after (exec .rdse (reader [0x38] 1 0 0))
    t.result = 0xFFFFFFFD ∧ t.br.bit = 5 := by decide

/-! ### Host accesses, reset and the assembler (95_test_vectors.md section 6, R100) -/

/-- V-C2: STATUS just after the CMD write. -/
theorem test_issue_status :
    let s := after (step { failedReader with
      status := { Status.reset with done := true, err := true, errCode := 0x05 }
      inputs := [.write (.offset .reg 0x00) 4 0x00000003] })
    s.readReg .status = 0x00020001 ∧ s.latch = some 0x00000003 := by decide
/-- V-C4, V-C5: a word write and read, by bus address. -/
theorem test_word_little_endian :
    let t := after (step (pending [.write (.address 0x2000) 4 0x01000000, .read (.address 0x2000) 4]))
    t.ibuf = stored [0x00, 0x00, 0x00, 0x01] ∧ (after (step t)).readData = some 0x01000000 := by decide
/-- V-C6, V-C7 and an address outside all regions. -/
theorem test_bus_faults :
    faultOf (step (pending [.read (.offset .ibuf 2) 4])) = some (.busFault .badAccess) ∧
      faultOf (step (pending [.read (.offset .reg 4) 1])) = some (.busFault .badAccess) ∧
      faultOf (step (pending [.read (.offset .ibuf 64) 1])) = some (.busFault .pastRegion) ∧
      faultOf (step (pending [.read (.address 0x4000) 1])) = some (.busFault .unmapped) := by decide
/-- V-C10. -/
theorem test_write_while_busy :
    faultOf (step (latched 0 [.write (.offset .ibuf 0) 1 0])) = some .hostWriteWhileBusy := by decide
/-- V-C1. -/
theorem test_reset_registers :
    [0x00, 0x04, 0x08, 0x0C, 0x10, 0x14, 0x18, 0x1C, 0x20, 0x24, 0x28, 0x2C, 0x30, 0x34, 0x40, 0x44, 0x48, 0x4C].map
        (fun off => State.reset.readReg (regAt off)) =
      [0, 0, 0, 0, 0, 0, 0xFFFFFFFF, 0, 0, 0, 0, 0, 0, 0, 64, 64, 4, 0] := by decide
/-- V-D1 placed for the next step. -/
theorem test_fetch_word :
    let t := after (step (State.reset.withFetchWord 32 0x00010003))
    t.br.state = .ready ∧ t.br.src = .obuf ∧ t.status.word t.br.state = 0x00010002 ∧ t.latch = none := by decide
/-- R100: the operations of `scan 0, 11`. -/
theorem test_assemble_scan :
    assemble (.scan 0 11) = some [.write (.offset .reg 0x08) 4 0, .write (.offset .reg 0x0C) 4 11,
      .write (.offset .reg 0x00) 4 0x00000001, .wait] := by decide
/-- R100, R101: a line's text. -/
theorem test_parse_line :
    parseLine ['s', 'c', 'a', 'n', ' ', '5', ',', ' ', '0', 'x', '1', 'F', ' ', ';', ' ', 'x'] =
        some (some (.scan 5 0x1F)) ∧
      parseLine ['w', 'r', 'b', ' ', 'I', 'B', 'U', 'F', ':', '2', ',', ' ', '0', '0', ' ', 'C', 'E'] =
        some (some (.wrb .ibuf 2 [0x00, 0xCE])) ∧
      parseLine [' ', ';', 'n', 'o', 'p'] = some none ∧ parseLine ['j', 'm', 'p'] = none := by decide

/-! ### Witnesses: encoding, issue, completion -/

theorem witness_WordSelectsItsRow :
    (Instr.nop.row ∈ opcodeMap ∧ (0 : Word) &&& Instr.nop.row.mask = Instr.nop.row.matchWord) ∧
      (∀ r ∈ opcodeMap, (8 : Word) &&& r.mask ≠ r.matchWord) := by decide
theorem witness_EncodeThenParse : (Instr.rdbits 63).wf = true ∧ (Instr.brInit .obuf).wf = true := by decide
theorem witness_ParseThenEncode : parse 0x00003F05 = some (.rdbits 63) := by decide
theorem witness_engine_turn_listed :
    engineNext (latched 0x00002005 [.engine, .wait]) [.wait] ∧
      (latched 0x00002005 [.engine, .wait]).latch = some 0x00002005 ∧ parse 0x00002005 = some (.rdbits 32) :=
  ⟨Or.inl rfl, rfl, by decide⟩
theorem witness_engine_turn_default :
    engineNext (latched 0x00000000 []) [] ∧ (latched 0x00000000 []).latch = some 0x00000000 := ⟨Or.inr ⟨rfl, rfl⟩, rfl⟩
theorem witness_illegal_op : illegalWord 0x00000008 ∧ engineNext (latched 0x00000008 []) [] :=
  ⟨Or.inl (by decide), Or.inr ⟨rfl, rfl⟩⟩
theorem witness_illegal_reserved : illegalWord 0x00004005 ∧ illegalWord 0x00020003 :=
  ⟨Or.inr (Or.inl (by decide)), Or.inr (Or.inr (Or.inl (by decide)))⟩
theorem witness_illegal_stray : illegalWord 0x00000104 ∧ illegalWord 0x00010001 :=
  ⟨Or.inr (Or.inr (Or.inr (Or.inl (by decide)))), Or.inr (Or.inr (Or.inr (Or.inr (by decide))))⟩
theorem witness_CmdWriteIssues :
    ((pending [.write (.offset .reg 0x00) 4 7]).inputs = .write (.offset .reg 0x00) 4 7 :: [] ∧
        (pending [.write (.offset .reg 0x00) 4 7]).status.busy = false) ∧
      (pending [.write (.address State.reset.config.baseReg) 4 7]).inputs =
        .write (.address State.reset.config.baseReg) 4 7 :: [] := by decide
theorem witness_FailureIsPrecise_data :
    ∃ t, exec .rdue (reader [0x00] 1 0 0) = .next t ∧ t.status.err = true ∧ t.status.errCode = 0x05 :=
  ⟨_, rfl, by decide⟩
theorem witness_FailureIsPrecise_other :
    ∃ t, exec .rdbit State.reset = .next t ∧ t.status.err = true ∧
      ¬ (t.status.errCode = 0x04 ∨ t.status.errCode = 0x05 ∨ t.status.errCode = 0x06) := ⟨_, rfl, by decide⟩
theorem witness_FailureIsPrecise_step :
    ∃ t, engineNext (latched 0x00000006 []) [] ∧ step (latched 0x00000006 []) = .next t ∧ t.status.err = true :=
  ⟨_, Or.inr ⟨rfl, rfl⟩, rfl, by decide⟩
theorem witness_NopCompletes_other_word : (0x00010000 : Word).toNat % 256 = 0 ∧ (0x00010000 : Word) ≠ 0 := by decide
theorem witness_CommandFootprints :
    (∃ t, exec .strip State.reset = .next t) ∧ (∃ t, exec .scan State.reset = .next t ∧ t.status.err = false) ∧
      (∃ t, exec .rdbit (reader [0xA5] 1 0 0) = .next t ∧ isRead .rdbit = true) ∧
      (∃ t, exec (.rdbits 33) State.reset = .next t ∧ t.status.err = true) :=
  ⟨⟨_, rfl⟩, ⟨_, rfl, by decide⟩, ⟨_, rfl, rfl⟩, ⟨_, rfl, by decide⟩⟩
theorem witness_ReaderStateChanges :
    (∃ t, exec (.brInit .ibuf) State.reset = .next t ∧ t.br.state ≠ State.reset.br.state) ∧
      (∃ t, exec .rdbit (reader [] 0 0 0) = .next t ∧ t.br.state ≠ (reader [] 0 0 0).br.state) :=
  ⟨⟨_, rfl, by decide⟩, ⟨_, rfl, by decide⟩⟩
theorem witness_FailedReaderNeedsBrInit :
    failedReader.br.state = .failed ∧ (∃ t, exec (.brInit .obuf) failedReader = .next t) ∧
      isRead (.rdbits 32) = true ∧ (∀ n, Instr.rdbits 32 = .rdbits n → n ≤ 32) :=
  ⟨rfl, ⟨_, rfl⟩, rfl, fun n h => by cases h; decide⟩

/-! ### Witnesses: the BitReader -/

theorem witness_CursorPrimitives :
    (reader [0xA5] 1 0 7).br.wf 64 ∧ (reader [0xA5] 1 0 7).ibuf.lookup (0 + 0) = some 0xA5 ∧
      1 ≤ (reader [0xA5] 1 0 7).br.remaining := by decide
theorem witness_StreamBitOrder : (reader [0xDE, 0xAD] 2 0 7).ibuf.lookup (0 + (8 * 0 + 7 + 1) / 8) = some 0xAD := by decide
theorem witness_BrInit_range :
    (64 < (ranged [] 60 5).arg0.toNat + (ranged [] 60 5).arg1.toNat) ∧
      ((ranged [] 64 0).arg0.toNat + (ranged [] 64 0).arg1.toNat ≤ 64) := by decide
theorem witness_Rdbit_not_ready : State.reset.br.state ≠ .ready ∧ failedReader.br.state ≠ .ready := by decide
theorem witness_Rdbit_end : (reader [0xA5] 1 1 0).br.state = .ready ∧ (reader [0xA5] 1 1 0).br.remaining < 1 := by decide
theorem witness_Rdbit_last : (reader [0xA5] 1 0 7).br.state = .ready ∧ 1 ≤ (reader [0xA5] 1 0 7).br.remaining := by decide
theorem witness_Rdbits_short :
    (reader [0xDE, 0xAD] 2 0 0).br.state = .ready ∧ (reader [0xDE, 0xAD] 2 0 0).br.remaining < 17 := by decide
theorem witness_Rdbits_full :
    (reader [0xDE, 0xAD, 0xBE, 0xEF] 4 0 0).br.state = .ready ∧
      32 ≤ (reader [0xDE, 0xAD, 0xBE, 0xEF] 4 0 0).br.remaining := by decide
theorem witness_UeCode_shortest : UeCode (reader [0x80] 1 0 0) 0 0 :=
  ⟨by decide, by decide, by decide, by decide, 0, by decide, by decide, by decide⟩
theorem witness_UeCode_longest :
    UeCode (reader [0x00, 0x00, 0x00, 0x01, 0xFF, 0xFF, 0xFF, 0xFE] 8 0 0) 31 0xFFFFFFFE :=
  ⟨by decide, by decide, by decide, by decide, 0x7FFFFFFF, by decide, by decide, by decide⟩
theorem witness_UeError_truncated : UeError (reader [0x00, 0x00, 0x00, 0x00] 4 0 1) 0x05 :=
  Or.inl ⟨rfl, by decide, by decide⟩
theorem witness_UeError_overflow : UeError (reader [0x00, 0x00, 0x00, 0x00] 4 0 0) 0x06 :=
  Or.inr (Or.inl ⟨rfl, by decide, by decide⟩)
theorem witness_UeError_short_suffix : UeError (reader [0x01] 1 0 0) 0x04 :=
  Or.inr (Or.inr ⟨rfl, 7, by decide, by decide, by decide, by decide, by decide⟩)
theorem witness_UeRoundTrip_largest :
    Holds (reader [0x00, 0x00, 0x00, 0x01, 0xFF, 0xFF, 0xFF, 0xFE] 8 0 0) (encodeUe (2 ^ 32 - 2)) :=
  ⟨by decide, by decide⟩
theorem witness_UeAcceptsOnlyItsCode :
    ∃ t, exec .rdue (reader [0x38] 1 0 0) = .next t ∧ t.status.err = false := ⟨_, rfl, by decide⟩
theorem witness_SeRoundTrip_bounds :
    Holds (reader [0x00, 0x00, 0x00, 0x01, 0xFF, 0xFF, 0xFF, 0xFE] 8 0 0) (encodeSe (-(2 ^ 31 - 1))) ∧
      Holds (reader [0x00, 0x00, 0x00, 0x01, 0xFF, 0xFF, 0xFF, 0xFC] 8 0 0) (encodeSe (2 ^ 31 - 1)) :=
  ⟨⟨by decide, by decide⟩, ⟨by decide, by decide⟩⟩
theorem witness_ReadResultsInRange :
    (∃ t, exec .rdbit (reader [0x80] 1 0 0) = .next t ∧ t.status.err = false) ∧
      (∃ t, exec (.rdbits 8) (reader [0x80] 1 0 0) = .next t ∧ t.status.err = false) ∧
      (∃ t, exec .rdse (reader [0x80] 1 0 0) = .next t ∧ t.status.err = false) :=
  ⟨⟨_, rfl, by decide⟩, ⟨_, rfl, by decide⟩, ⟨_, rfl, by decide⟩⟩
theorem witness_ReadsConsumeExactly :
    (reader [0x38] 1 0 0).br.wf ((reader [0x38] 1 0 0).capacity .ibuf) ∧
      ∃ t, exec .rdue (reader [0x38] 1 0 0) = .next t ∧ t.status.err = false := ⟨by decide, _, rfl, by decide⟩
theorem witness_RdbitsComposesRdbit :
    (reader [0xDE, 0xAD, 0xBE, 0xEF] 4 0 0).br.wf 64 ∧ sliceWritten (reader [0xDE, 0xAD, 0xBE, 0xEF] 4 0 0) ∧
      31 < 32 ∧ 31 + 1 ≤ (reader [0xDE, 0xAD, 0xBE, 0xEF] 4 0 0).br.remaining :=
  ⟨by decide, by unfold sliceWritten; decide, by decide, by decide⟩
theorem witness_ReadsStayInsideSlice :
    (reader [0x38, 0x00] 1 0 0).br = (reader [0x38, 0xFF] 1 0 0).br ∧
      (∀ j, j < 1 → (reader [0x38, 0x00] 1 0 0).ibuf.lookup (0 + j) = (reader [0x38, 0xFF] 1 0 0).ibuf.lookup (0 + j)) :=
  by decide

/-! ### Witnesses: SCAN and STRIP -/

theorem witness_Scan_ranges :
    64 < (ranged [] 60 5).arg0.toNat + (ranged [] 60 5).arg1.toNat ∧
      (ranged [] 60 4).arg0.toNat + (ranged [] 60 4).arg1.toNat ≤ 64 := by decide
theorem witness_Scan_table_full :
    let s := { ranged exampleStream 0 11 with config := { Config.vectors with utabDepth := 1 } }
    s.config.Valid ∧ s.config.utabDepth < s.startCodes.length := by decide
theorem witness_Scan_table_fits :
    let s := { ranged exampleStream 0 11 with config := { Config.vectors with utabDepth := 2 } }
    s.startCodes.length ≤ s.config.utabDepth ∧ s.startCodes ≠ [] := by decide
/-- The start codes of V-S1, as the relation finds them. -/
theorem witness_ScanRun :
    let s := ranged exampleStream 0 11
    ScanRun (fun i d => s.rangeByte (4 * i + d) (i + d)) 4 11 0 [(0, 3), (5, 4)] :=
  .three 0 _ (by decide) (by decide) (.miss 3 _ (by decide) (by decide) (by decide)
    (.miss 4 _ (by decide) (by decide) (by decide) (.four 5 _ (by decide) (by decide) (.stop 9 (by decide)))))
theorem witness_ScanUnits :
    (ranged exampleStream 0 11).config.Valid ∧
      ∃ t, exec .scan (ranged exampleStream 0 11) = .next t ∧ t.status.err = false ∧ 0 + 1 < t.unitCount.toNat ∧
        1 + 1 = t.unitCount.toNat := ⟨by decide, _, rfl, by decide⟩
theorem witness_Scan_short :
    (ranged [] 61 3).arg0.toNat + (ranged [] 61 3).arg1.toNat ≤ 64 ∧
      (ranged [] 61 3).arg1.toNat < (ranged [] 61 3).config.scanMargin := by decide
theorem witness_range_written :
    (ranged exampleStream 0 11).config.Valid ∧ rangeWritten (ranged exampleStream 0 11) ∧
      (ranged exampleStream 0 11).obuf.wf ∧
      (∃ t t', exec .scan (ranged exampleStream 0 11) = .next t ∧ exec .scan t = .next t') ∧
      (∃ t t', exec .strip (ranged exampleStream 0 11) = .next t ∧ exec .strip t = .next t') :=
  ⟨by decide, by unfold rangeWritten; decide, by decide, ⟨_, _, rfl, rfl⟩, ⟨_, _, rfl, rfl⟩⟩
theorem witness_ScanIsRelativeToBase :
    let s := ranged exampleStream 0 6
    let s' := ranged (0xFF :: exampleStream) 1 6
    s.config.Valid ∧ (∀ j, j < s.argLen → (s.ibuf.lookup (s.argOff + j)).isSome = true) ∧
      s.argLen = s'.argLen ∧ s.config = s'.config ∧ s'.argOff + s'.argLen ≤ s'.config.ibufBytes ∧
      s.argOff + s.argLen ≤ s.config.ibufBytes ∧
      (∀ j, j < s.argLen → s.ibuf.lookup (s.argOff + j) = s'.ibuf.lookup (s'.argOff + j)) ∧
      (after (exec .scan s)).status.err = false ∧ (after (exec .scan s')).unitCount = 1 := by decide
theorem witness_ZeroRun :
    let s := ranged [0x00, 0x00, 0x00, 0x01] 0 4
    s.config.Valid ∧ s.config.scanMargin = 4 ∧ 3 + 1 ≤ s.argLen ∧ (∀ j, j < 3 → s.ibuf.lookup (s.argOff + j) = some 0x00) ∧
      s.ibuf.lookup (s.argOff + 3) = some 0x01 ∧ (after (exec .scan s)).status.err = false ∧
      (after (exec .scan s)).unitCount = 1 := by decide
theorem witness_Strip_ranges :
    let s := { ranged exampleStream 0 11 with config := { Config.vectors with obufBytes := 10 } }
    let s' := { ranged exampleStream 0 11 with config := { Config.vectors with obufBytes := 11 } }
    s.config.obufBytes < s.arg1.toNat ∧ s'.arg1.toNat ≤ s'.config.obufBytes ∧
      64 < (ranged [] 60 5).arg0.toNat + (ranged [] 60 5).arg1.toNat := by decide
theorem witness_StripLengthLaws :
    emulationByteAt (ranged [0x00, 0x00, 0x03, 0x01] 0 4) 2 ∧
      (after (exec .strip (ranged [0x00, 0x00, 0x03, 0x01] 0 4))).status.err = false :=
  ⟨⟨by decide, by decide, by decide, by decide, Or.inr (by decide)⟩, by decide⟩

/-! ### Witnesses: the host bus, reset and runs -/

theorem witness_Access_by_offset : Access Config.vectors (.offset .ibuf 63) 1 .ibuf 63 :=
  ⟨Or.inl rfl, by decide, Or.inr ⟨rfl, Or.inl rfl⟩⟩
theorem witness_Access_by_address : Access Config.vectors (.address (0x1000 + 60)) 4 .utab 60 :=
  ⟨Or.inr ⟨rfl, by decide⟩, by decide, Or.inl ⟨rfl, by decide⟩⟩
theorem witness_Access_refused : ¬ ∃ r off, Access Config.vectors (.address 0x4000) 1 r off := by
  rintro ⟨r, off, h, -, -⟩
  rcases h with h | ⟨h, h'⟩
  · cases h
  · have e : 0x4000 = Config.vectors.base r + off := BusTarget.address.inj h
    cases r <;> simp only [Config.base, Config.size, Config.vectors] at e h' <;> omega
theorem witness_WriteWhileBusy :
    let s := latched 0 [.write (.offset .ibuf 63) 1 0]
    s.status.busy = true ∧ s.config.Valid ∧ s.inputs = .write (.offset .ibuf 63) 1 0 :: [] ∧
      Access s.config (.offset .ibuf 63) 1 .ibuf 63 :=
  ⟨rfl, by decide, rfl, witness_Access_by_offset⟩
theorem witness_DecodeFollowsR97 :
    decode 0x00002105 = .error .operandRange ∧ decode 0x00000008 = .error .illegalCommand ∧
      engineNext (latched 0x00002105 []) [] := ⟨rfl, rfl, Or.inr ⟨rfl, rfl⟩⟩
theorem witness_CmdWrite_busy :
    (latched 0 [.write (.offset .reg 0x00) 4 7]).status.busy = true ∧
      (latched 0 [.write (.offset .reg 0x00) 4 7]).inputs = .write (.offset .reg 0x00) 4 7 :: [] := by decide
theorem witness_Cursor_inside_byte : (reader [0xA5] 1 0 6).br.wf 64 ∧ (reader [0xA5] 1 0 6).br.bit.toNat + 1 ≠ 8 ∧
    (reader [0xA5] 1 0 7).br.bit.toNat + 1 = 8 := by decide
theorem witness_HostWordRead :
    let s := { ranged exampleStream 0 0 with inputs := [.read (.offset .ibuf 4) 4] }
    s.ibuf.lookup 4 = some 0xAA ∧ s.ibuf.lookup (4 + 3) = some 0x00 ∧ s.status.busy = false := by decide
theorem witness_HostWords :
    let s := pending [.write (.offset .ibuf 60) 4 7]
    let s' := pending [.write (.offset .obuf 63) 1 7]
    (60 % 4 = 0 ∧ 60 + 4 ≤ s.config.size .ibuf ∧ s.status.busy = false ∧
        s.inputs = .write (.offset .ibuf 60) 4 7 :: []) ∧
      63 < s'.config.size .obuf ∧ s'.inputs = .write (.offset .obuf 63) 1 7 :: [] := by decide
theorem witness_IgnoredWrites :
    let s := pending [.write (.offset .reg 0xFC) 4 7]
    let s' := pending [.write (.offset .utab 60) 4 7]
    (0xFC % 4 = 0 ∧ 0xFC + 4 ≤ 256 ∧ s.status.busy = false ∧ s.inputs = .write (.offset .reg 0xFC) 4 7 :: []) ∧
      60 + 4 ≤ 16 * s'.config.utabDepth ∧ s'.inputs = .write (.offset .utab 60) 4 7 :: [] := by decide
theorem witness_OperandWrites :
    (pending [.write (.offset .reg 0x08) 4 7]).inputs = .write (.offset .reg 0x08) 4 7 :: [] ∧
      (pending [.write (.offset .reg 0x0C) 4 7]).inputs = .write (.offset .reg 0x0C) 4 7 :: [] := by decide
theorem witness_RegisterMapReads :
    (∃ t, step (pending [.read (.offset .reg 0xFC) 4]) = .next t) ∧
      (∃ t, step (pending [.read (.offset .reg 0x48) 4]) = .next t) ∧
      (∃ t, step (pending [.read (.offset .reg 0x04) 4]) = .next t) := ⟨⟨_, rfl⟩, ⟨_, rfl⟩, ⟨_, rfl⟩⟩
theorem witness_UtabReads :
    let s := { pending [.read (.offset .utab (16 * 0 + 4 * 2)) 4] with
      utab := [{ dataOff := 3, len := 2, hdr := 0x67 }] }
    (∃ t, step s = .next t ∧ t.readData = some 0x67) ∧ s.utab[0]? = some { dataOff := 3, len := 2, hdr := 0x67 } ∧
      ∃ t, step (pending [.read (.offset .utab (16 * 3 + 4 * 3)) 4]) = .next t :=
  ⟨⟨_, rfl, by decide⟩, rfl, ⟨_, rfl⟩⟩
/-- The invariants hold in a busy state with a byte stored. -/
theorem busy_inv (xs : List Input) :
    ({ latched 0 xs with ibuf := stored [0xA5] } : State).Inv where
  config := by show Config.Valid Config.vectors; decide
  ibufWf := by show Memory.wf (stored [0xA5]); decide
  ibufBelow := by show Memory.below (stored [0xA5]) 64; decide
  obufWf := List.Pairwise.nil
  obufBelow := fun x hx => absurd hx (List.not_mem_nil)
  reader := ⟨by show 0 + 0 ≤ 64; decide, Nat.le_refl _, fun _ => rfl⟩
  busyIsLatched := rfl
  notBoth := fun h => Bool.noConfusion h.2
  errIsCode := ⟨fun h => Bool.noConfusion h, fun h => absurd rfl h⟩
  errCodeRange := Nat.zero_le _
  busyNoErr := fun _ => rfl
  shortIsNosc := fun h => Bool.noConfusion h
  utabFits := Nat.zero_le _
  utabHeaders := fun x hx => absurd hx (List.not_mem_nil)
  unitsWritten := Nat.zero_le _
  noUnits := ⟨fun _ => rfl, fun _ => rfl⟩
  outLenFits := Nat.zero_le _
theorem witness_ExactReadsWhileBusy :
    let s (xs : List Input) : State := { latched 0 xs with ibuf := stored [0xA5] }
    (s [.read (.offset .ibuf 0) 1]).Inv ∧ (s []).status.busy = true ∧ (s []).ibuf.lookup 0 = some 0xA5 ∧
      (∃ t, step (s [.read (.offset .ibuf 0) 1]) = .next t) ∧ ∃ t, step (s [.read (.offset .reg 0x04) 4]) = .next t :=
  ⟨busy_inv _, rfl, by decide, ⟨_, rfl⟩, ⟨_, rfl⟩⟩
theorem witness_ExactReadsWhileBusy_word :
    let s : State := { latched 0 [.read (.offset .ibuf 0) 4] with ibuf := stored [0xA5, 1, 2, 3] }
    s.status.busy = true ∧ s.ibuf.lookup (0 + 3) = some 3 ∧ (after (step s)).readData = some 0x030201A5 := by decide
theorem witness_ResetGivesR55 : (latched 7 [.reset, .wait]).inputs = .reset :: [.wait] := rfl
theorem witness_InvariantsAfterReset : Config.vectors.Valid := by decide
theorem witness_StepKeepsInvariants :
    ∃ s t : State, s.Inv ∧ step s = .next t ∧ t ≠ s :=
  ⟨{ latched 0 [] with ibuf := stored [0xA5] }, _, busy_inv [], rfl, by decide⟩
theorem witness_OnlyHostAccessesFault :
    faultOf (step (latched 0 [.write (.offset .reg 0) 4 0])) = some .hostWriteWhileBusy ∧
      faultOf (step (pending [.read (.address 0x4000) 1])) = some (.busFault .unmapped) := by decide
theorem witness_OnlyHostAccessesFault_engine :
    (∀ t b rest, (latched 0 [.engine]).inputs ≠ .read t b :: rest) ∧
      (∀ t b v rest, (latched 0 [.engine]).inputs ≠ .write t b v :: rest) :=
  ⟨fun _ _ _ h => (List.cons.inj h).1 |> Input.noConfusion, fun _ _ _ _ h => (List.cons.inj h).1 |> Input.noConfusion⟩
theorem witness_WaitEnds :
    let s : State := { latched 0 [.wait] with ibuf := stored [0xA5] }
    s.Inv ∧ s.inputs = .wait :: [] ∧ s.status.busy = true := ⟨busy_inv _, rfl, rfl⟩
theorem witness_CommandLineRuns :
    (lineCommand (.skip 32) = some (.rdbits 32, none) ∧ (assemble (.skip 32)).isSome = true) ∧
      (lineCommand (.brinit .obuf 0 5) = some (.brInit .obuf, some (0, 5)) ∧
        (assemble (.brinit .obuf 0 5)).isSome = true) ∧ State.reset.status.busy = false := by decide
/-- A build whose regions lie at other bases. -/
def elsewhere : Config :=
  { Config.vectors with baseReg := 0x10000, baseUtab := 0x11000, baseIbuf := 0x12000, baseObuf := 0x13000 }
/-- Two instances: one after reset, and one that has just been given a NOP. -/
def twoUnits : Platform := { units := [State.reset, { latched 0 [] with config := elsewhere }] }
theorem witness_InstancesAreIndependent :
    twoUnits.unit 1 = some { latched 0 [] with config := elsewhere, stream := 1 } ∧
      ∃ q, twoUnits.step (.turn 1) = .next q ∧ q.unit 0 = some State.reset := ⟨rfl, _, rfl, rfl⟩
theorem witness_BusAddressNamesOffset :
    Config.vectors.Valid ∧ 63 < Config.vectors.size .ibuf ∧
      ∀ r : Region, 0x4000 < Config.vectors.base r ∨ Config.vectors.base r + Config.vectors.size r ≤ 0x4000 :=
  ⟨by decide, by decide, fun r => by cases r <;> decide⟩
theorem witness_HostByteReads :
    let s := { ranged exampleStream 0 0 with inputs := [.read (.offset .ibuf 10) 1] }
    let s' := { State.reset with obuf := Memory.write [] 63 0xA5, inputs := [.read (.offset .obuf 63) 1] }
    (s.ibuf.lookup 10 = some 0xBB ∧ s.status.busy = false ∧ 10 < s.config.size .ibuf) ∧
      s'.obuf.lookup 63 = some 0xA5 ∧ 63 < s'.config.size .obuf := by decide
theorem witness_HostReadsRepeat_utab :
    let s := pending [.read (.offset .utab 60) 4, .read (.offset .utab 60) 4]
    s.config.Valid ∧ s.status.busy = false ∧ Access s.config (.offset .utab 60) 4 .utab 60 :=
  ⟨by decide, rfl, Or.inl rfl, by decide, Or.inl ⟨rfl, by decide⟩⟩
theorem witness_HostReadsRepeat_ibuf :
    Access Config.vectors (.address (0x2000 + 4)) 4 .ibuf 4 ∧
      ∀ j, j < 4 → ((ranged exampleStream 0 0).ibuf.lookup (4 + j)).isSome = true :=
  ⟨⟨Or.inr ⟨rfl, by decide⟩, by decide, Or.inl ⟨rfl, by decide⟩⟩, by decide⟩
theorem witness_BusReachesOneInstance :
    twoUnits.Valid ∧ twoUnits.unit 1 = some { latched 0 [] with config := elsewhere, stream := 1 } ∧
      0 < elsewhere.size .ibuf ∧ 0x12000 = elsewhere.base .ibuf + 0 ∧
      ∀ s ∈ twoUnits.units, ∀ r : Region, 0x20000 < s.config.base r ∨ s.config.base r + s.config.size r ≤ 0x20000 := by
  refine ⟨⟨by decide, ?_⟩, rfl, by decide, rfl, ?_⟩
  · refine List.pairwise_cons.mpr ⟨fun s hs r r' => ?_, List.pairwise_singleton _ _⟩
    obtain rfl := List.mem_singleton.mp hs
    cases r <;> cases r' <;> decide
  · intro s hs r
    rcases List.mem_cons.mp hs with rfl | hs
    · cases r <;> decide
    · obtain rfl := List.mem_singleton.mp hs
      cases r <;> decide
/-- A host write at a bus address reaches the instance that has a region there (R60, R246). -/
theorem test_platform_routes :
    (match (Platform.reset [Config.vectors, elsewhere]).step (.write 0x10008 4 7) with
      | .next q => q.units.map State.arg0
      | .fault _ | .refused _ => []) = [0, 7] := by decide
/-- A word of UTAB that nothing has written reads the same twice (R69). -/
theorem test_utab_rereads :
    let t := after (step (pending [.read (.offset .utab 0) 4, .read (.offset .utab 0) 4]))
    (after (step t)).readData = t.readData := rfl
/-- The reset input moves on to other contents of UTAB (R47). -/
theorem test_reset_utab : (after (step (pending [.reset]))).resets = 1 := by decide

end Sys2Proof.Tests
end

section
/-! The cursor of R42: what `advance()` does inside a byte and at its end, the bits consumed and remaining under the
invariants of R40, and the next bit on a written byte. -/

namespace Sys2Proof.Machine

/-- `advance()` inside a byte (R42). -/
theorem BitReader.advance_inside_byte {br : BitReader} (h : br.bit.toNat + 1 ≠ 8) :
    br.advance = { br with bit := br.bit + 1 } :=
  if_neg fun h7 => h (by rw [h7]; rfl)

/-- `advance()` at the last bit of a byte (R42). -/
theorem BitReader.advance_at_byte_end {br : BitReader} (h : br.bit.toNat + 1 = 8) :
    br.advance = { br with byte := br.byte + 1, bit := 0 } :=
  if_pos (BitVec.eq_of_toNat_eq (Nat.succ.inj h))

/-- Inside a byte the 3-bit `bit` does not wrap. -/
theorem BitReader.bit_add_one_toNat {br : BitReader} (h : br.bit.toNat + 1 ≠ 8) :
    (br.bit + 1).toNat = br.bit.toNat + 1 :=
  BitVec.toNat_add_of_lt (show br.bit.toNat + 1 < 2 ^ 3 by have := br.bit.isLt; omega)

/-- Short of the end of the slice the 32-bit `byte` does not wrap. -/
theorem BitReader.byte_add_one_toNat {br : BitReader} (h : br.byte.toNat < br.size.toNat) :
    (br.byte + 1).toNat = br.byte.toNat + 1 :=
  BitVec.toNat_add_of_lt (show br.byte.toNat + 1 < 2 ^ 32 by have := br.size.isLt; omega)

/-- R40 puts the cursor at the end of the slice with no bit begun, or on one of its bytes. -/
theorem BitReader.wf_cases {br : BitReader} {cap : Nat} (hwf : br.wf cap) :
    (br.byte = br.size ∧ br.bit.toNat = 0) ∨ br.byte.toNat < br.size.toNat := by
  obtain ⟨-, hbyte, hbit⟩ := hwf
  rcases hbyte.eq_or_lt with heq | hlt
  · have hend := BitVec.eq_of_toNat_eq heq
    exact Or.inl ⟨hend, by rw [hbit hend]; rfl⟩
  · exact Or.inr hlt

/-- Under R40 the cursor is not past the end of the slice. -/
theorem BitReader.consumed_le {br : BitReader} {cap : Nat} (hwf : br.wf cap) :
    br.consumed ≤ 8 * br.size.toNat := by
  have hb := br.bit.isLt
  unfold BitReader.consumed
  rcases BitReader.wf_cases hwf with ⟨hend, hbit⟩ | hlt
  · rw [hend, hbit]; omega
  · omega

/-- Under R40 the natural number `remaining` is the integer that R42 writes (log 13). -/
theorem BitReader.remaining_eq_int {br : BitReader} {cap : Nat} (hwf : br.wf cap) :
    (br.remaining : Int) = 8 * ((br.size.toNat : Int) - br.byte.toNat) - br.bit.toNat := by
  have h := BitReader.consumed_le hwf
  unfold BitReader.remaining
  unfold BitReader.consumed at h ⊢
  omega

/-- A reader with a bit left is on a byte of the slice. -/
theorem BitReader.byte_lt_of_remaining {br : BitReader} (h : 1 ≤ br.remaining) :
    br.byte.toNat < br.size.toNat := by
  unfold BitReader.remaining BitReader.consumed at h
  omega

/-- Under R40 no bit is left exactly at the end of the slice (R42). -/
theorem BitReader.remaining_eq_zero_iff {br : BitReader} {cap : Nat} (hwf : br.wf cap) :
    br.remaining = 0 ↔ br.byte = br.size := by
  have hb := br.bit.isLt
  unfold BitReader.remaining BitReader.consumed
  rcases BitReader.wf_cases hwf with ⟨hend, hbit⟩ | hlt
  · rw [hend, hbit]; simp
  · have hne : br.byte ≠ br.size := fun e => hlt.ne (congrArg BitVec.toNat e)
    simp only [hne, iff_false]
    omega

/-- With a bit left, `advance()` consumes it: the counter of R41 does not wrap. -/
theorem BitReader.consumed_advance {br : BitReader} (h : 1 ≤ br.remaining) :
    br.advance.consumed = br.consumed + 1 := by
  have hs := br.size.isLt
  have hlt : br.consumed + 1 < 2 ^ 35 := by unfold BitReader.remaining at h; omega
  rw [BitReader.advance_eq, BitReader.consumed_setConsumed, Nat.mod_eq_of_lt hlt]

/-- With a bit left, `advance()` leaves one fewer. -/
theorem BitReader.remaining_advance {br : BitReader} (h : 1 ≤ br.remaining) :
    br.advance.remaining + 1 = br.remaining := by
  have hsize : br.advance.size = br.size := by rw [BitReader.advance_eq]; rfl
  have hc := BitReader.consumed_advance h
  unfold BitReader.remaining at h ⊢
  rw [hsize]
  omega

/-- With a bit left, `advance()` keeps the invariants of R40. -/
theorem BitReader.advance_wf {br : BitReader} {cap : Nat} (hwf : br.wf cap) (h : 1 ≤ br.remaining) :
    br.advance.wf cap := by
  obtain ⟨hcap, hbyte, -⟩ := hwf
  have hlt := BitReader.byte_lt_of_remaining h
  by_cases hend : br.bit.toNat + 1 = 8
  · rw [BitReader.advance_at_byte_end hend]
    exact ⟨hcap, (BitReader.byte_add_one_toNat hlt).trans_le hlt, fun _ => rfl⟩
  · rw [BitReader.advance_inside_byte hend]
    exact ⟨hcap, hbyte, fun e => absurd (congrArg BitVec.toNat e) hlt.ne⟩

/-- A stream bit on a written byte is that byte's bit, whatever the draw (R9, R66). -/
theorem State.streamBit_of_lookup {s : State} {t : Nat} {b : Byte}
    (h : (s.buffer s.br.src).lookup (s.br.base.toNat + (s.br.consumed + t) / 8) = some b) :
    s.streamBit t = b.getLsbD (7 - (s.br.consumed + t) % 8) := by
  rw [State.streamBit, Memory.byteAt_of_lookup h]

/-- `next_bit()` is bit `7 - bit` of the byte under the cursor (R42). -/
theorem State.streamBit_zero_of_lookup {s : State} {b : Byte}
    (h : (s.buffer s.br.src).lookup (s.br.base.toNat + s.br.byte.toNat) = some b) :
    s.streamBit 0 = b.getLsbD (7 - s.br.bit.toNat) := by
  have hb := s.br.bit.isLt
  have hdiv : (s.br.consumed + 0) / 8 = s.br.byte.toNat := by unfold BitReader.consumed; omega
  have hmod : (s.br.consumed + 0) % 8 = s.br.bit.toNat := by unfold BitReader.consumed; omega
  rw [State.streamBit_of_lookup (by rwa [hdiv]), hmod]

/-- Settles O15: each clause is the law of the cursor that states it. -/
theorem cursorPrimitives : Obligations.CursorPrimitives := by
  intro s hwf
  refine ⟨BitReader.remaining_eq_int hwf, BitReader.remaining_eq_zero_iff hwf,
    fun b hb => State.streamBit_zero_of_lookup hb, fun hin => ?_, fun hend => ?_, fun hleft => ?_⟩
  · rw [BitReader.advance_inside_byte hin]
    exact ⟨BitReader.bit_add_one_toNat hin, rfl⟩
  · rw [BitReader.advance_at_byte_end hend]
    exact ⟨rfl, rfl⟩
  · exact ⟨BitReader.consumed_advance hleft, BitReader.remaining_advance hleft, BitReader.advance_wf hwf hleft⟩

end Sys2Proof.Machine
end

section
/-! The command word's fields: their values as numbers (R90 to R93), the word they make up, and what a mask of the
opcode map leaves of them. -/

namespace Sys2Proof

/-- OP as a number (R91). -/
theorem opField_toNat (w : Word) : (opField w).toNat = w.toNat % 256 := by
  simp [opField]

/-- N as a number (R92). -/
theorem nField_toNat (w : Word) : (nField w).toNat = w.toNat / 2 ^ 8 % 64 := by
  simp [nField, Nat.shiftRight_eq_div_pow]

/-- The reserved bits w[15:14] as a number (R90). -/
theorem reservedLow_toNat (w : Word) : (reservedLow w).toNat = w.toNat / 2 ^ 14 % 4 := by
  simp [reservedLow, Nat.shiftRight_eq_div_pow]

/-- SRC as a number (R93). -/
theorem srcField_toNat (w : Word) : (srcField w).toNat = w.toNat / 2 ^ 16 % 2 := by
  simp [srcField, Nat.shiftRight_eq_div_pow]

/-- The reserved bits w[31:17] as a number: the top of the word (R90). -/
theorem reservedHigh_toNat (w : Word) : (reservedHigh w).toNat = w.toNat / 2 ^ 17 := by
  have hw := w.isLt
  simp only [reservedHigh, BitVec.extractLsb'_toNat, Nat.shiftRight_eq_div_pow]
  omega

/-- The fields of R90 cover the word: two words are equal exactly when their fields are. -/
theorem word_eq_iff_fields (w v : Word) : w = v ↔
    opField w = opField v ∧ nField w = nField v ∧ reservedLow w = reservedLow v ∧ srcField w = srcField v ∧
      reservedHigh w = reservedHigh v := by
  refine ⟨fun h => h ▸ ⟨rfl, rfl, rfl, rfl, rfl⟩, fun h => BitVec.eq_of_toNat_eq ?_⟩
  simp only [← BitVec.toNat_inj, opField_toNat, nField_toNat, reservedLow_toNat, srcField_toNat,
    reservedHigh_toNat] at h
  omega

/-- A masked word equals a match word exactly when each masked field does (R96). -/
theorem and_eq_iff_fields (w m v : Word) : w &&& m = v ↔
    opField w &&& opField m = opField v ∧ nField w &&& nField m = nField v ∧
      reservedLow w &&& reservedLow m = reservedLow v ∧ srcField w &&& srcField m = srcField v ∧
      reservedHigh w &&& reservedHigh m = reservedHigh v := by
  rw [word_eq_iff_fields]
  simp only [opField, nField, reservedLow, srcField, reservedHigh, BitVec.extractLsb'_and]

/-- A word has no stray field exactly when its reserved bits are 0, and N and SRC are 0 but where the opcode uses them
(R94). -/
theorem strayField_eq_false_iff (w : Word) : strayField w = false ↔
    reservedLow w = 0 ∧ reservedHigh w = 0 ∧ (opField w ≠ 0x05 → nField w = 0) ∧
      (opField w ≠ 0x03 → srcField w = 0) := by
  simp [strayField, and_assoc, not_imp_comm]

/-- The match word of a row sets no bit but the opcode's (R96). -/
theorem opcodeMap_matchWord_fields : ∀ r ∈ opcodeMap,
    nField r.matchWord = 0 ∧ reservedLow r.matchWord = 0 ∧ srcField r.matchWord = 0 ∧ reservedHigh r.matchWord = 0 := by
  decide

/-- The mask of a row leaves out N for RDBITS and SRC for BR_INIT, and no other bit (R96). -/
theorem opcodeMap_mask_fields : ∀ r ∈ opcodeMap,
    opField r.mask = BitVec.allOnes 8 ∧
      nField r.mask = (if opField r.matchWord = 0x05 then 0 else BitVec.allOnes 6) ∧
      reservedLow r.mask = BitVec.allOnes 2 ∧
      srcField r.mask = (if opField r.matchWord = 0x03 then 0 else BitVec.allOnes 1) ∧
      reservedHigh r.mask = BitVec.allOnes 15 := by
  decide

/-- The rows of the opcode map have different opcodes (R96). -/
theorem opcodeMap_opField_injective :
    ∀ r ∈ opcodeMap, ∀ r' ∈ opcodeMap, opField r.matchWord = opField r'.matchWord → r = r' := by
  decide

/-- Every command's row stands in the opcode map (R96). -/
theorem Instr.row_mem_opcodeMap (i : Instr) : i.row ∈ opcodeMap := by
  cases i <;> simp [opcodeMap, Instr.row]

/-- A field that a mask leaves out in case c, and keeps whole otherwise. -/
theorem and_maskField_eq_zero_iff {k : Nat} (c : Prop) [Decidable c] (x : BitVec k) :
    x &&& (if c then 0 else BitVec.allOnes k) = 0 ↔ (¬ c → x = 0) := by
  by_cases h : c
  · simp [h]
  · rw [if_neg h, BitVec.and_allOnes]
    exact ⟨fun hx _ => hx, fun hx => hx h⟩

/-- R96's patterns in the terms of R94: a word selects a row exactly when it has the row's opcode and no stray field. -/
theorem selects_iff {r : OpcodeRow} (hr : r ∈ opcodeMap) (w : Word) :
    w &&& r.mask = r.matchWord ↔ opField w = opField r.matchWord ∧ strayField w = false := by
  obtain ⟨hn, hlow, hsrc, hhigh⟩ := opcodeMap_matchWord_fields r hr
  obtain ⟨mop, mn, mlow, msrc, mhigh⟩ := opcodeMap_mask_fields r hr
  rw [and_eq_iff_fields, strayField_eq_false_iff, hn, hlow, hsrc, hhigh, mop, mn, mlow, msrc, mhigh,
    and_maskField_eq_zero_iff, and_maskField_eq_zero_iff]
  simp only [BitVec.and_allOnes]
  refine and_congr_right fun hop => ?_
  rw [hop]
  exact ⟨fun ⟨n, low, src, high⟩ => ⟨low, high, n, src⟩, fun ⟨low, high, n, src⟩ => ⟨n, low, src, high⟩⟩

/-- No word selects two rows of the opcode map (R96). -/
theorem opcodeMap_rows_disjoint {w : Word} {r r' : OpcodeRow} (hr : r ∈ opcodeMap) (hr' : r' ∈ opcodeMap)
    (h : w &&& r.mask = r.matchWord) (h' : w &&& r'.mask = r'.matchWord) : r = r' :=
  opcodeMap_opField_injective r hr r' hr' (((selects_iff hr w).mp h).1.symm.trans ((selects_iff hr' w).mp h').1)

/-- A command with its operand, if it has one, replaced by the word's: N for RDBITS, SRC for BR_INIT (R92, R93). -/
def Instr.withOperand (n : Nat) (src : Source) : Instr → Instr
  | .brInit _ => .brInit src
  | .rdbits _ => .rdbits n
  | i => i

/-- An opcode names a command exactly when it is the one in the command's row and the command has the operand of the
fields (R91). -/
theorem instrOfOpcode_eq_some_iff (op : BitVec 8) (n : Nat) (src : Source) (i : Instr) :
    instrOfOpcode op.toNat n src = some i ↔ op = opField i.row.matchWord ∧ i = i.withOperand n src := by
  constructor
  · unfold instrOfOpcode
    split
    all_goals
      rename_i hop
      rintro ⟨⟩
    all_goals exact ⟨BitVec.eq_of_toNat_eq hop, rfl⟩
  · rintro ⟨rfl, hi⟩
    cases i <;> cases hi <;> rfl

/-- The decoder reads R96's map: a word parses to a command exactly when it selects the command's row and the command
has the operand of its fields. -/
theorem parse_eq_some_iff (w : Word) (i : Instr) :
    parse w = some i ↔
      w &&& i.row.mask = i.row.matchWord ∧ i = i.withOperand (nField w).toNat (Source.ofBit (srcField w)) := by
  rw [selects_iff i.row_mem_opcodeMap]
  unfold parse
  cases strayField w
  · simpa using instrOfOpcode_eq_some_iff _ _ _ i
  · simp

/-- An opcode is reserved exactly when it is above 0x07 (R91, R98). -/
theorem instrOfOpcode_eq_none_iff (op n : Nat) (src : Source) : instrOfOpcode op n src = none ↔ 7 < op := by
  constructor
  · intro h
    by_contra hle
    interval_cases op <;> cases h
  · intro h
    obtain ⟨k, rfl⟩ := Nat.exists_eq_add_of_le' h
    rfl

/-- RDBITS reads at most 32 bits (R92). -/
theorem Instr.countTooLarge_rdbits (n : Nat) : (Instr.rdbits n).countTooLarge = true ↔ 32 < n :=
  decide_eq_true_iff

/-- A word that parses to nothing is illegal (R97). -/
theorem decode_of_parse_eq_none {w : Word} (h : parse w = none) : decode w = .error .illegalCommand := by
  simp only [decode, h]

/-- The two errors of decode (R97, R221). -/
theorem decode_error_cases {w : Word} {e : ErrorCode} (h : decode w = .error e) :
    e = .illegalCommand ∨ e = .operandRange := by
  unfold decode at h
  split at h
  · cases h; exact Or.inl rfl
  · split at h <;> cases h
    exact Or.inr rfl

end Sys2Proof
end

section
/-! The family of 30_encoding.md: the opcode map (R96), the checks of decode (R97), and what an illegal word does
(R94). -/

namespace Sys2Proof.Machine

open Sys2Proof.Claims

/-- SRC read as R96 reads it, by bit 16 of the word. -/
theorem source_ofBit_srcField (w : Word) :
    Source.ofBit (srcField w) = if w.getLsbD 16 then .obuf else .ibuf := by
  have hbit : (srcField w).getLsbD 0 = w.getLsbD 16 := by simp [srcField]
  rw [← hbit]
  generalize srcField w = b
  revert b
  decide

/-- SRC read as a number (R93). -/
theorem source_ofBit_srcField_toNat (w : Word) :
    Source.ofBit (srcField w) = if w.toNat / 2 ^ 16 % 2 = 0 then .ibuf else .obuf := by
  simp only [Source.ofBit, ← BitVec.toNat_inj, srcField_toNat]
  rfl

/-- The stray fields of R94 (b), (c) and (d), on the word as a number. -/
theorem strayField_eq_false_iff_toNat (w : Word) : strayField w = false ↔
    w.toNat / 2 ^ 14 % 4 = 0 ∧ w.toNat / 2 ^ 17 = 0 ∧ (w.toNat % 256 ≠ 5 → w.toNat / 2 ^ 8 % 64 = 0) ∧
      (w.toNat % 256 ≠ 3 → w.toNat / 2 ^ 16 % 2 = 0) := by
  simp only [strayField_eq_false_iff, ne_eq, ← BitVec.toNat_inj, opField_toNat, nField_toNat, reservedLow_toNat,
    srcField_toNat, reservedHigh_toNat]
  rfl

/-- R94 in the terms of the decoder: a reserved opcode, or a stray field. -/
theorem illegalWord_iff (w : Word) : illegalWord w ↔ 7 < w.toNat % 256 ∨ strayField w = true := by
  rw [← Bool.not_eq_false, strayField_eq_false_iff_toNat]
  unfold illegalWord
  omega

/-- A legal word gives the command of its opcode, with the word's fields (R97). -/
theorem parse_of_legal {w : Word} (h : ¬ illegalWord w) :
    parse w = instrOfOpcode (w.toNat % 256) (w.toNat / 2 ^ 8 % 64)
      (if w.toNat / 2 ^ 16 % 2 = 0 then .ibuf else .obuf) := by
  rw [illegalWord_iff, not_or] at h
  rw [parse, if_neg h.2, opField_toNat, nField_toNat, source_ofBit_srcField_toNat]

/-- An illegal word parses to nothing (R94). -/
theorem parse_of_illegal {w : Word} (h : illegalWord w) : parse w = none := by
  rcases (illegalWord_iff w).mp h with hop | hstray
  · rw [parse, opField_toNat, (instrOfOpcode_eq_none_iff _ _ _).mpr hop, ite_self]
  · rw [parse, if_pos hstray]

/-- When the engine acts next, the step is the engine's (R212). -/
theorem step_of_engineNext {s : State} {rest : List Input} (h : engineNext s rest) :
    step s = engineStep { s with inputs := rest } := by
  rcases h with h | ⟨h, rfl⟩
  · simp only [step, takeTurn, h]
  · simp only [step, takeTurn, h]
    rw [← h]

/-- A latched word that decode rejects ends its command with the error, before any state is read (R221). -/
theorem step_of_decode_error {s : State} {rest : List Input} {w : Word} {e : ErrorCode} (h : engineNext s rest)
    (hw : s.latch = some w) (he : decode w = .error e) :
    step s = .next ((State.raise e { s with inputs := rest }).spend 0) := by
  rw [step_of_engineNext h]
  simp only [engineStep, hw, he, State.complete_error]

/-- An error that is no data error fails the command and changes nothing but STATUS and the latch (R224). -/
theorem raise_spend_eq_failed {e : ErrorCode} (he : isDataError e = false) (s : State) (k : Nat) :
    (s.raise e).spend k = failed s (errorNumber e) (s.draws + k) := by
  simp only [State.raise, he]
  rfl

/-- A latched word that decode rejects changes nothing but STATUS and the latch (R97, R224). -/
theorem step_decode_error_eq_failed {s : State} {rest : List Input} {w : Word} {e : ErrorCode} (h : engineNext s rest)
    (hw : s.latch = some w) (he : decode w = .error e) :
    ∃ d, step s = .next (failed { s with inputs := rest } (errorNumber e) d) := by
  have hdata : isDataError e = false := by rcases decode_error_cases he with rfl | rfl <;> rfl
  exact ⟨_, (step_of_decode_error h hw he).trans (congrArg _ (raise_spend_eq_failed hdata _ _))⟩

/-- Settles O2: an illegal word fails one of the first four checks, a legal one is decoded by its opcode; and a
rejected word ends with its error. -/
theorem decodeFollowsR97 : Obligations.DecodeFollowsR97 := by
  refine ⟨fun w => ?_, fun s rest w e hnext hlatch he => ?_⟩
  · by_cases hill : illegalWord w
    · rw [decode_of_parse_eq_none (parse_of_illegal hill)]
      unfold illegalWord at hill
      split_ifs with hreserved hop hn hsrc
      · rfl
      · rfl
      · rfl
      · rfl
      all_goals omega
    · have hparse := parse_of_legal hill
      unfold illegalWord at hill
      rw [if_neg (by omega), if_neg (by omega), if_neg (by omega), if_neg (by omega), decode, hparse]
      have hop : w.toNat % 256 ≤ 7 := by omega
      clear hill hparse
      generalize w.toNat % 256 = op at hop
      interval_cases op
      -- RDBITS is the one opcode with a range check (R92).
      pick_goal 6
      · simp only [instrOfOpcode, Instr.countTooLarge_rdbits, true_and]
      all_goals rfl
  · have hcode : errorNumber e = if e = .operandRange then 0x02 else 0x01 := by
      rcases decode_error_cases he with rfl | rfl <;> rfl
    rw [← hcode]
    exact step_decode_error_eq_failed hnext hlatch he

/-- Settles O3: the decoder reads the opcode map, whose rows differ in their opcodes. -/
theorem wordSelectsItsRow : Obligations.WordSelectsItsRow := by
  refine ⟨fun w i => ?_, fun w r r' => opcodeMap_rows_disjoint, fun w hnone => ?_⟩
  · rw [parse_eq_some_iff, source_ofBit_srcField]
    cases i <;> simp [Instr.row, Instr.withOperand, nField]
  · refine decode_of_parse_eq_none (Option.eq_none_iff_forall_ne_some.mpr fun i hi => ?_)
    exact hnone i.row i.row_mem_opcodeMap ((parse_eq_some_iff w i).mp hi).1

/-- Settles O7: decode rejects an illegal word with IllegalCommand, which is no data error. -/
theorem illegalWordChangesOnlyStatus : Obligations.IllegalWordChangesOnlyStatus :=
  fun _ _ _ hnext hlatch hill =>
    step_decode_error_eq_failed hnext hlatch (decode_of_parse_eq_none (parse_of_illegal hill))

end Sys2Proof.Machine
end

section
/-! What a command completes to, by what its body answers: its writes (R212), or an error (R224); and what a read
command completes to, by what its decoder answers (R120). -/

namespace Sys2Proof.Machine

open Sys2Proof.Claims

/-- A data error fails the command and puts the BitReader in FAILED (R224). -/
theorem raise_spend_eq_dataFailed {e : ErrorCode} (he : isDataError e = true) (s : State) (k : Nat) :
    (s.raise e).spend k = dataFailed s (errorNumber e) (s.draws + k) := by
  simp only [State.raise, he]
  rfl

theorem exec_of_body_ok {i : Instr} {s t : State} (h : commandBody i s = .ok t) :
    ∃ d, exec i s = .next (completed t d) :=
  ⟨t.draws + commandDraws i s, by rw [exec_eq_complete, h]; rfl⟩

theorem exec_of_body_error {i : Instr} {s : State} {e : ErrorCode} (h : commandBody i s = .error e)
    (he : isDataError e = false) : ∃ d, exec i s = .next (failed s (errorNumber e) d) :=
  ⟨_, by rw [exec_eq_complete, h, State.complete_error, raise_spend_eq_failed he]⟩

theorem exec_of_body_dataError {i : Instr} {s : State} {e : ErrorCode} (h : commandBody i s = .error e)
    (he : isDataError e = true) : ∃ d, exec i s = .next (dataFailed s (errorNumber e) d) :=
  ⟨_, by rw [exec_eq_complete, h, State.complete_error, raise_spend_eq_dataFailed he]⟩

/-- A command that leaves ERR = 0 is one whose body answered its writes. -/
theorem body_ok_of_exec {i : Instr} {s t : State} (h : exec i s = .next t) (herr : t.status.err = false) :
    ∃ u d, commandBody i s = .ok u ∧ t = completed u d := by
  rw [exec_eq_complete] at h
  cases hbody : commandBody i s with
  | error e => rw [hbody] at h; cases h; cases herr
  | ok u => rw [hbody] at h; cases h; exact ⟨u, _, rfl, rfl⟩

section
variable {i : Instr} {s : State} {dec : (Nat → Bool) → Nat → Except ErrorCode (Nat × Nat)} {f : Nat → Word}

theorem exec_read_not_ready (hread : commandBody i s = s.readCommand dec f) (hs : s.br.state ≠ .ready) :
    ∃ d, exec i s = .next (failed s 0x03 d) :=
  exec_of_body_error (hread.trans (if_neg hs)) rfl

theorem exec_read_dataError (hread : commandBody i s = s.readCommand dec f) (hs : s.br.state = .ready)
    {e : ErrorCode} (hdec : dec s.streamBit s.br.remaining = .error e) (he : isDataError e = true) :
    ∃ d, exec i s = .next (dataFailed s (errorNumber e) d) := by
  refine exec_of_body_dataError ?_ he
  rw [hread, State.readCommand, if_pos hs, hdec]

theorem exec_read_ok (hread : commandBody i s = s.readCommand dec f) (hs : s.br.state = .ready) {v n : Nat}
    (hdec : dec s.streamBit s.br.remaining = .ok (v, n)) :
    ∃ d, exec i s = .next (completed { s with result := f v, br := BitReader.advance^[n] s.br } d) := by
  refine exec_of_body_ok ?_
  rw [hread, State.readCommand, if_pos hs, hdec, BitReader.advance_iterate]

/-- A read that leaves ERR = 0 advanced the cursor by the bits its decoder took, in the same buffer. -/
theorem read_ok_of_exec (hread : commandBody i s = s.readCommand dec f) {t : State} (hexec : exec i s = .next t)
    (herr : t.status.err = false) :
    ∃ v n, dec s.streamBit s.br.remaining = .ok (v, n) ∧ t.br = BitReader.advance^[n] s.br ∧
      t.capacity t.br.src = s.capacity s.br.src := by
  obtain ⟨u, d, hbody, rfl⟩ := body_ok_of_exec hexec herr
  rw [hread] at hbody
  rcases s.readCommand_cases dec f with ⟨-, h⟩ | ⟨-, e, -, h⟩ | ⟨-, v, n, hdec, h⟩ <;> rw [h] at hbody <;>
    cases hbody
  exact ⟨v, n, hdec, (BitReader.advance_iterate n s.br).symm, rfl⟩

end

end Sys2Proof.Machine
end

section
/-! What the decoders of the reads answer, in the terms of the statements: a field of n bits (R123), an exp-Golomb code,
or the error of the first fault met (R124). -/

namespace Sys2Proof.Machine

open Sys2Proof.Claims

theorem readFixed_of_lt {n avail : Nat} (h : avail < n) (bit : Nat → Bool) :
    readFixed n bit avail = .error .unexpectedEndOfUnit :=
  if_pos h

theorem readFixed_of_le {n avail : Nat} (h : n ≤ avail) (bit : Nat → Bool) :
    readFixed n bit avail = .ok (bitsValue bit 0 n, n) :=
  if_neg (Nat.not_lt.mpr h)

theorem readFixed_ok {n avail v m : Nat} {bit : Nat → Bool} (h : readFixed n bit avail = .ok (v, m)) :
    m = n ∧ n ≤ avail := by
  rcases readFixed_cases n bit avail with ⟨h', hle⟩ | ⟨h', -⟩ <;> rw [h'] at h <;> cases h
  exact ⟨rfl, hle⟩

/-- A field of one bit is that bit (R122). -/
theorem unsignedResult_bitsValue_one (bit : Nat → Bool) :
    unsignedResult (bitsValue bit 0 1) = if bit 0 then 1 else 0 := by
  cases h : bit 0 <;> simp [unsignedResult, bitsValue, h]

/-- A field of at most 32 bits fits the result register (R30). -/
theorem unsignedResult_bitsValue_toNat (bit : Nat → Bool) {n : Nat} (hn : n ≤ 32) :
    (unsignedResult (bitsValue bit 0 n)).toNat = bitsValue bit 0 n :=
  Nat.mod_eq_of_lt ((bitsValue_lt bit 0 n).trans_le (Nat.pow_le_pow_right (by decide) hn))

/-- The value of n bits is the only one below 2^n with these bits, the first the most significant. -/
theorem eq_bitsValue {bit : Nat → Bool} {t n v : Nat} (hv : v < 2 ^ n)
    (hbits : ∀ j, j < n → v.testBit (n - 1 - j) = bit (t + j)) : v = bitsValue bit t n := by
  refine Nat.eq_of_testBit_eq fun i => ?_
  by_cases hi : i < n
  · have hj : n - 1 - i < n := by omega
    have h := (hbits _ hj).trans (bitsValue_testBit bit t n _ hj).symm
    rwa [show n - 1 - (n - 1 - i) = i by omega] at h
  · have hpow : 2 ^ n ≤ 2 ^ i := Nat.pow_le_pow_right (by decide) (by omega)
    rw [Nat.testBit_lt_two_pow (hv.trans_le hpow), Nat.testBit_lt_two_pow ((bitsValue_lt bit t n).trans_le hpow)]

/-- The count of leading zeros ends at the first 1, if there are at most 31 before it. -/
theorem ueZeros_of_first_one {bit : Nat → Bool} {avail k : Nat} (hk : k ≤ ueMaxLz) (havail : k < avail)
    (hzeros : ∀ j, j < k → bit j = false) (hone : bit k = true) : ueZeros bit avail 0 ueMaxLz = .ok k := by
  rcases ueZeros_cases bit avail 0 ueMaxLz with ⟨z, h, -, -, -, hz, hz1⟩ | ⟨-, -, hz⟩ | ⟨-, -, hz⟩
  · rcases lt_trichotomy z k with hlt | rfl | hgt
    · exact absurd hz1 (by simp [hzeros z hlt])
    · exact h
    · exact absurd hone (by simp [hz k (by omega) hgt])
  · exact absurd hone (by simp [hz k (by omega) havail])
  · exact absurd hone (by simp [hz k (by omega) (by omega)])

/-- A slice that ends within its first 31 bits, all of them 0, truncates the code. -/
theorem ueZeros_of_short {bit : Nat → Bool} {avail : Nat} (havail : avail ≤ ueMaxLz)
    (hzeros : ∀ j, j < avail → bit j = false) : ueZeros bit avail 0 ueMaxLz = .error .truncatedExpGolombCode := by
  rcases ueZeros_cases bit avail 0 ueMaxLz with ⟨z, -, -, -, hz, -, hz1⟩ | ⟨h, -⟩ | ⟨-, hlong, -⟩
  · exact absurd hz1 (by simp [hzeros z hz])
  · exact h
  · omega

/-- 32 leading zeros overflow the code. -/
theorem ueZeros_of_long {bit : Nat → Bool} {avail : Nat} (havail : ueMaxLz < avail)
    (hzeros : ∀ j, j ≤ ueMaxLz → bit j = false) : ueZeros bit avail 0 ueMaxLz = .error .expGolombOverflow := by
  rcases ueZeros_cases bit avail 0 ueMaxLz with ⟨z, -, -, hz, -, -, hz1⟩ | ⟨-, hshort, -⟩ | ⟨h, -⟩
  · exact absurd hz1 (by simp [hzeros z (by omega)])
  · omega
  · exact h

/-- `ue()` decodes a code to its codeNum, and takes its 2k + 1 bits (R124). -/
theorem readUe_of_ueCode {s : State} {k c : Nat} (h : UeCode s k c) :
    readUe s.streamBit s.br.remaining = .ok (c, 2 * k + 1) := by
  obtain ⟨hk, hlen, hzeros, hone, v, hv, hbits, rfl⟩ := h
  have hkleft : k < s.br.remaining := by omega
  simp only [readUe, ueZeros_of_first_one hk hkleft hzeros hone]
  rw [if_neg (by omega), eq_bitsValue hv hbits]

/-- `ue()` raises the data error that reports the first fault met (R124). -/
theorem readUe_of_ueError {s : State} {code : Byte} (h : UeError s code) :
    ∃ e, readUe s.streamBit s.br.remaining = .error e ∧ isDataError e = true ∧ errorNumber e = code := by
  rcases h with ⟨rfl, hshort, hzeros⟩ | ⟨rfl, hlong, hzeros⟩ | ⟨rfl, k, hk, hone, hsuffix, hzeros, hbit⟩
  · exact ⟨.truncatedExpGolombCode, by rw [readUe, ueZeros_of_short hshort hzeros], rfl, rfl⟩
  · exact ⟨.expGolombOverflow,
      by rw [readUe, ueZeros_of_long hlong fun j hj => hzeros j (Nat.lt_succ_of_le hj)], rfl, rfl⟩
  · refine ⟨.unexpectedEndOfUnit, ?_, rfl, rfl⟩
    simp only [readUe, ueZeros_of_first_one hk hone hzeros hbit]
    rw [if_pos (by omega)]

/-- The bits from the cursor on are a code, or one of the faults of R124: no third case. -/
theorem ueCode_or_ueError (s : State) : (∃ k c, UeCode s k c) ∨ ∃ code, UeError s code := by
  rcases readUe_cases s.streamBit s.br.remaining with ⟨k, -, hk, hlen, hzeros, hone⟩ |
    ⟨k, -, hk, hbit, hshort, hzeros, hone⟩ | ⟨-, hshort, hzeros⟩ | ⟨-, hlong, hzeros⟩
  · exact Or.inl ⟨k, _, hk, hlen, hzeros, hone, _, bitsValue_lt _ (k + 1) k, bitsValue_testBit _ (k + 1) k, rfl⟩
  · exact Or.inr ⟨_, Or.inr (Or.inr ⟨rfl, k, hk, hbit, hshort, hzeros, hone⟩)⟩
  · exact Or.inr ⟨_, Or.inl ⟨rfl, hshort, hzeros⟩⟩
  · exact Or.inr ⟨_, Or.inr (Or.inl ⟨rfl, hlong, hzeros⟩)⟩

/-- What `ue()` accepts is a code: any other bit string gives an error. -/
theorem ueCode_of_readUe {s : State} {c n : Nat} (h : readUe s.streamBit s.br.remaining = .ok (c, n)) :
    ∃ k, UeCode s k c ∧ n = 2 * k + 1 := by
  rcases ueCode_or_ueError s with ⟨k, c', hcode⟩ | ⟨code, hfault⟩
  · have h' := readUe_of_ueCode hcode
    rw [h] at h'
    cases h'
    exact ⟨k, hcode, rfl⟩
  · obtain ⟨e, h', -, -⟩ := readUe_of_ueError hfault
    rw [h] at h'
    cases h'

/-- The model's signed value of a codeNum is R125's. -/
theorem seValue_eq_seOf (c : Nat) : seValue c = seOf c := by
  unfold seValue seOf
  split <;> omega

/-- As many advances as there are bits left keep the invariants of R40, and each consumes one bit (R127). -/
theorem BitReader.advance_iterate_keeps {br : BitReader} {cap n : Nat} (hwf : br.wf cap) (hn : n ≤ br.remaining) :
    (BitReader.advance^[n] br).wf cap ∧ (BitReader.advance^[n] br).consumed = br.consumed + n ∧
      (BitReader.advance^[n] br).remaining + n = br.remaining := by
  induction n with
  | zero => exact ⟨hwf, rfl, rfl⟩
  | succ n ih =>
    obtain ⟨hwf', hconsumed, hremaining⟩ := ih (by omega)
    have hleft : 1 ≤ (BitReader.advance^[n] br).remaining := by omega
    rw [Function.iterate_succ_apply']
    refine ⟨BitReader.advance_wf hwf' hleft, ?_, ?_⟩
    · rw [BitReader.consumed_advance hleft, hconsumed, Nat.add_assoc]
    · have := BitReader.remaining_advance hleft
      omega

end Sys2Proof.Machine
end

section
/-! The family of 40_bitreader.md: BR_INIT (R121), the reads (R122 to R125), and what a successful read consumes
(R127). -/

namespace Sys2Proof.Machine

open Sys2Proof.Claims

/-- N of RDBITS's word is its count (R92, R100). -/
theorem nField_encode_rdbits {n : Nat} (hn : n < 64) : (nField (encode (.rdbits n))).toNat = n := by
  interval_cases n <;> rfl

/-- RDBITS's word decodes to its count (R96). -/
theorem parse_encode_rdbits {n : Nat} (hn : n < 64) : parse (encode (.rdbits n)) = some (.rdbits n) := by
  refine (parse_eq_some_iff _ _).mpr ⟨Laws.EncodedInRow.rdbits n (decide_eq_true hn), ?_⟩
  rw [Instr.withOperand, nField_encode_rdbits hn]

/-- A slice that passes the end of its buffer is an error (R121). -/
theorem commandBody_brInit_of_lt {s : State} {src : Source} (h : s.capacity src < s.argOff + s.argLen) :
    commandBody (.brInit src) s = .error .operandRange :=
  if_pos h

/-- A slice inside its buffer, up to its end, becomes the reader's (R121). -/
theorem commandBody_brInit_of_le {s : State} {src : Source} (h : s.argOff + s.argLen ≤ s.capacity src) :
    commandBody (.brInit src) s = .ok { s with br := s.initialReader src } :=
  if_neg (Nat.not_lt.mpr h)

/-- RDBITS's count is checked before the reader is (R97, R226). -/
theorem commandBody_rdbits_of_lt {n : Nat} (hn : 32 < n) (s : State) :
    commandBody (.rdbits n) s = .error .operandRange :=
  if_pos hn

/-- With a count that fits, RDBITS is a read (R97, R123). -/
theorem commandBody_rdbits_of_le {n : Nat} (hn : n ≤ 32) (s : State) :
    commandBody (.rdbits n) s = s.readCommand (readFixed n) unsignedResult :=
  if_neg (Nat.not_lt.mpr hn)

section
variable {i : Instr} {s t : State} {dec : (Nat → Bool) → Nat → Except ErrorCode (Nat × Nat)} {f : Nat → Word}

/-- A read of a code, with either reading of the codeNum (R124, R125). -/
theorem exec_read_ueCode (hread : commandBody i s = s.readCommand readUe f) (hs : s.br.state = .ready) {k c : Nat}
    (hcode : UeCode s k c) :
    ∃ d, exec i s = .next (completed { s with result := f c, br := BitReader.advance^[2 * k + 1] s.br } d) :=
  exec_read_ok hread hs (readUe_of_ueCode hcode)

/-- A read of what is no code, with either reading of the codeNum (R124, R125). -/
theorem exec_read_ueError (hread : commandBody i s = s.readCommand readUe f) (hs : s.br.state = .ready) {code : Byte}
    (hfault : UeError s code) : ∃ d, exec i s = .next (dataFailed s code d) := by
  obtain ⟨e, hdec, hdata, rfl⟩ := readUe_of_ueError hfault
  exact exec_read_dataError hread hs hdec hdata

/-- R127, for a read whose decoder takes only bits that are left: it keeps R40 and consumes what the decoder took. -/
theorem read_consumes (hread : commandBody i s = s.readCommand dec f)
    (hdec : ∀ v n, dec s.streamBit s.br.remaining = .ok (v, n) → n ≤ s.br.remaining)
    (hwf : s.br.wf (s.capacity s.br.src)) (hexec : exec i s = .next t) (herr : t.status.err = false) :
    t.br.wf (t.capacity t.br.src) ∧
      ∃ v n, dec s.streamBit s.br.remaining = .ok (v, n) ∧ t.br.consumed = s.br.consumed + n := by
  obtain ⟨v, n, hok, hbr, hcap⟩ := read_ok_of_exec hread hexec herr
  obtain ⟨hwf', hconsumed, -⟩ := BitReader.advance_iterate_keeps hwf (hdec v n hok)
  rw [hcap, hbr]
  exact ⟨hwf', v, n, hok, hconsumed⟩

/-- A read of a field of n bits consumes n (R127). -/
theorem fixed_read_consumes {n : Nat} (hread : commandBody i s = s.readCommand (readFixed n) f)
    (hwf : s.br.wf (s.capacity s.br.src)) (hexec : exec i s = .next t) (herr : t.status.err = false) :
    t.br.wf (t.capacity t.br.src) ∧ t.br.consumed = s.br.consumed + n := by
  have hdec (v m : Nat) (h : readFixed n s.streamBit s.br.remaining = .ok (v, m)) : m ≤ s.br.remaining :=
    (readFixed_ok h).1.trans_le (readFixed_ok h).2
  obtain ⟨hwf', v, m, hok, hconsumed⟩ := read_consumes hread hdec hwf hexec herr
  exact ⟨hwf', (readFixed_ok hok).1 ▸ hconsumed⟩

/-- A read of an exp-Golomb code consumes the code (R127). -/
theorem ue_read_consumes (hread : commandBody i s = s.readCommand readUe f)
    (hwf : s.br.wf (s.capacity s.br.src)) (hexec : exec i s = .next t) (herr : t.status.err = false) :
    t.br.wf (t.capacity t.br.src) ∧
      ∃ k c, UeCode s k c ∧ t.br.consumed = s.br.consumed + (2 * k + 1) := by
  have hdec (c m : Nat) (h : readUe s.streamBit s.br.remaining = .ok (c, m)) : m ≤ s.br.remaining := by
    obtain ⟨k, ⟨-, hlen, -⟩, rfl⟩ := ueCode_of_readUe h
    exact hlen
  obtain ⟨hwf', c, m, hok, hconsumed⟩ := read_consumes hread hdec hwf hexec herr
  obtain ⟨k, hcode, rfl⟩ := ueCode_of_readUe hok
  exact ⟨hwf', k, c, hcode, hconsumed⟩

end

/-- RDBITS succeeds only with a count of at most 32 (R92). -/
theorem rdbits_count_le {n : Nat} {s t : State} (hexec : exec (.rdbits n) s = .next t)
    (herr : t.status.err = false) : n ≤ 32 := by
  by_contra hn
  obtain ⟨u, d, hbody, -⟩ := body_ok_of_exec hexec herr
  rw [commandBody_rdbits_of_lt (not_le.mp hn)] at hbody
  cases hbody

/-- Settles O17: the body of BR_INIT makes R121's one check. -/
theorem brInitPointsReader : Obligations.BrInitPointsReader := by
  refine ⟨by decide, fun s src cap hcap => ?_⟩
  have hcap : cap = s.capacity src := by cases src <;> exact hcap
  subst hcap
  exact ⟨fun hover => exec_of_body_error (commandBody_brInit_of_lt hover) rfl,
    fun hfits => exec_of_body_ok (commandBody_brInit_of_le hfits)⟩

/-- Settles O18: RDBIT is the read of a field of one bit. -/
theorem rdbitReadsOneBit : Obligations.RdbitReadsOneBit := by
  refine ⟨by decide, fun s => ⟨exec_read_not_ready rfl, fun hs hend => ?_, fun hs hleft => ?_⟩⟩
  · exact exec_read_dataError rfl hs (readFixed_of_lt hend _) rfl
  · rw [← unsignedResult_bitsValue_one]
    exact exec_read_ok rfl hs (readFixed_of_le hleft _)

/-- Settles O19: the count is checked first, then the read is that of a field of n bits. -/
theorem rdbitsReadsField : Obligations.RdbitsReadsField := by
  refine ⟨fun n => parse_encode_rdbits, fun s n => ⟨fun hn => ?_, fun hn hs => ?_, fun hn hs hshort => ?_,
    fun hn hs hleft => ?_⟩⟩
  · exact exec_of_body_error (commandBody_rdbits_of_lt hn s) rfl
  · exact exec_read_not_ready (commandBody_rdbits_of_le hn s) hs
  · exact exec_read_dataError (commandBody_rdbits_of_le hn s) hs (readFixed_of_lt hshort _) rfl
  · obtain ⟨d, hexec⟩ := exec_read_ok (commandBody_rdbits_of_le hn s) hs (readFixed_of_le hleft _)
    have hvalue := unsignedResult_bitsValue_toNat s.streamBit hn
    refine ⟨_, d, hexec, ?_, fun j hj => ?_⟩
    · rw [hvalue]
      exact bitsValue_lt _ _ _
    · rw [← BitVec.testBit_toNat, hvalue, bitsValue_testBit _ _ _ _ hj, Nat.zero_add]

/-- Settles O20: RDUE reads the codeNum as an unsigned word. -/
theorem rdueDecodesCode : Obligations.RdueDecodesCode :=
  ⟨by decide, fun s => ⟨exec_read_not_ready rfl, fun hs _ _ => exec_read_ueCode rfl hs,
    fun hs _ => exec_read_ueError rfl hs, ueCode_or_ueError s⟩⟩

/-- Settles O21: RDSE reads the codeNum as a signed word. -/
theorem rdseDecodesSignedCode : Obligations.RdseDecodesSignedCode := by
  refine ⟨by decide, fun s => ⟨exec_read_not_ready rfl, fun hs k c hcode => ?_,
    fun hs _ => exec_read_ueError rfl hs⟩⟩
  rw [← seValue_eq_seOf]
  exact exec_read_ueCode (f := signedResult) rfl hs hcode

/-- Settles O26: RDBIT and RDBITS read a field, RDUE and RDSE a code. -/
theorem readsConsumeExactly : Obligations.ReadsConsumeExactly := by
  intro i s t hi hwf hexec herr
  cases i with
  | nop | scan | strip | brInit src => cases hi
  | rdbit => simpa using fixed_read_consumes rfl hwf hexec herr
  | rdbits n =>
    simpa using fixed_read_consumes (commandBody_rdbits_of_le (rdbits_count_le hexec herr) s) hwf hexec herr
  | rdue | rdse => simpa using ue_read_consumes rfl hwf hexec herr

end Sys2Proof.Machine
end

section
/-! The family of 41_scanner.md: what a successful SCAN writes (R160), and what its information bits say of the start codes
found (R165, R166). -/

namespace Sys2Proof.Machine

open Sys2Proof.Claims

/-- The writes of a successful SCAN (R160). -/
def State.scanned (s : State) : State :=
  { s with
    utab := s.scanUnits ++ s.utab.drop s.scanUnits.length
    unitCount := BitVec.ofNat 32 s.startCodes.length
    lastSc := lastStart s.startCodes
    status := s.status.scanned (decide (s.argLen < s.config.scanMargin)) s.startCodes.isEmpty }

/-- SCAN's body succeeds exactly when the range lies in IBUF and the table holds its units (R160, R167). -/
theorem State.scanRange_eq_ok_iff {s u : State} : s.scanRange = .ok u ↔
    s.argOff + s.argLen ≤ s.config.ibufBytes ∧ s.startCodes.length ≤ s.config.utabDepth ∧ u = s.scanned := by
  rcases s.scanRange_cases with ⟨hover, h⟩ | ⟨-, hfull, h⟩ | ⟨hfits, hroom, h⟩
  · simp [h, hover]
  · simp [h, hfull]
  · simp [h, hfits, hroom, State.scanned, eq_comm]

/-- A SCAN that leaves ERR = 0 found no more start codes than the table has entries, and completed with its writes. -/
theorem scan_completed_of_exec {s t : State} (hexec : exec .scan s = .next t) (herr : t.status.err = false) :
    s.startCodes.length ≤ s.config.utabDepth ∧ ∃ d, t = completed s.scanned d := by
  obtain ⟨u, d, hbody, rfl⟩ := body_ok_of_exec hexec herr
  obtain ⟨-, hroom, rfl⟩ := State.scanRange_eq_ok_iff.mp hbody
  exact ⟨hroom, d, rfl⟩

/-- In a range shorter than the margin no position is probed (R161, R166). -/
theorem State.startCodes_of_short {s : State} (h : s.argLen < s.config.scanMargin) : s.startCodes = [] :=
  findStartCodes_stop _ (by omega) _

/-- A range without start codes has no units (R162). -/
theorem State.scanUnits_of_no_startCodes {s : State} (h : s.startCodes = []) : s.scanUnits = [] := by
  rw [State.scanUnits, h, unitsOf]

/-- The index of a start code is never NONE: the margin keeps it below the end of the range (R161, R165). -/
theorem State.startCodes_index_lt {s : State} {c : StartCode} (hmargin : 4 ≤ s.config.scanMargin)
    (hc : c ∈ s.startCodes) : c.index < noneWord.toNat := by
  obtain ⟨-, hend, -⟩ := findStartCodes_mem hc
  have hlen : s.argLen < 2 ^ 32 := s.arg1.isLt
  have hnone : noneWord.toNat = 2 ^ 32 - 1 := rfl
  omega

/-- LAST_SC is NONE exactly when no start code was found (R165). -/
theorem lastStart_eq_none_iff {codes : List StartCode} (h : ∀ c ∈ codes, c.index < noneWord.toNat) :
    lastStart codes = noneWord ↔ codes = [] := by
  refine ⟨fun hlast => ?_, fun hnil => by rw [hnil, lastStart_nil]⟩
  cases hget : codes.getLast? with
  | none => exact List.getLast?_eq_none_iff.mp hget
  | some c =>
    rw [lastStart_of_getLast? hget] at hlast
    have hlt := h c (List.mem_of_getLast? hget)
    have hindex : c.index % 2 ^ 32 = noneWord.toNat := by rw [← hlast, BitVec.toNat_ofNat]
    exact absurd hindex ((Nat.mod_le _ _).trans_lt hlt).ne

/-- UNIT_COUNT holds the number of start codes: a table of the sizes R6 admits has fewer entries than a word counts. -/
theorem State.scanned_unitCount_toNat {s : State} (hdepth : s.config.utabDepth ≤ 2 ^ 24)
    (hroom : s.startCodes.length ≤ s.config.utabDepth) : s.scanned.unitCount.toNat = s.startCodes.length :=
  Nat.mod_eq_of_lt (show s.startCodes.length < 2 ^ 32 by omega)

/-- Settles O31: a successful SCAN reports the start codes it found, of which a range short of the margin has none. -/
theorem scanInformationBits : Obligations.ScanInformationBits := by
  refine ⟨fun s t hvalid hexec herr => ?_, fun s hfits hshort => ?_⟩
  · obtain ⟨hroom, d, rfl⟩ := scan_completed_of_exec hexec herr
    obtain ⟨-, -, ⟨-, hdepth⟩, hmargin, -⟩ := hvalid
    have hcount := State.scanned_unitCount_toNat hdepth hroom
    have hnone : s.scanned.unitCount = 0 ↔ s.startCodes = [] := by
      rw [← BitVec.toNat_inj, hcount]
      exact List.length_eq_zero_iff
    exact ⟨decide_eq_true_iff, List.isEmpty_iff.trans hnone.symm,
      hnone.trans (lastStart_eq_none_iff fun c => State.startCodes_index_lt hmargin).symm,
      fun h => List.isEmpty_iff.mpr (State.startCodes_of_short (of_decide_eq_true h)),
      hcount.trans_le hroom, rfl⟩
  · have hcodes := State.startCodes_of_short hshort
    have hbody : commandBody .scan s = .ok s.scanned :=
      State.scanRange_eq_ok_iff.mpr ⟨hfits, by simp [hcodes], rfl⟩
    obtain ⟨d, hexec⟩ := exec_of_body_ok hbody
    refine ⟨_, hexec, rfl, rfl, decide_eq_true hshort, List.isEmpty_iff.mpr hcodes, ?_, ?_, ?_⟩
    · simp [completed, State.scanned, hcodes]
    · simp [completed, State.scanned, hcodes, noneWord]
    · simp [completed, State.scanned, State.scanUnits_of_no_startCodes hcodes]

end Sys2Proof.Machine
end

section
/-! The family of 43_control.md: the host's write to CMD, which issues a command (R211), and NOP (R210). -/

namespace Sys2Proof.Machine

open Sys2Proof.Claims

/-- A place inside a region, at an accepted width and alignment, passes the checks of R62 and R64. -/
theorem checkAccess_of_resolve {c : Config} {t : BusTarget} {bytes off : Nat} {r : Region}
    (hplace : resolve c t = some (r, off)) (hwidth : accepted r off bytes = true) (hend : off + bytes ≤ c.size r) :
    checkAccess c t bytes = .ok (r, off) := by
  simp only [checkAccess, hplace, hwidth, hend, if_true]

/-- The base address of REG is its offset 0, in every build: REG comes first in the search of the regions (R60). -/
theorem resolve_baseReg (c : Config) : resolve c (.address c.baseReg) = some (.reg, 0) := by
  have hreg : regionOffset c c.baseReg .reg = some (.reg, 0) := by
    simp [regionOffset, Config.base, Config.size]
  rw [resolve, hreg, Option.some_or]

/-- CMD takes a 32-bit access, by its offset or by its bus address (R22, R62). -/
theorem checkAccess_cmd {c : Config} {t : BusTarget} (ht : t = .offset .reg 0x00 ∨ t = .address c.baseReg) :
    checkAccess c t 4 = .ok (.reg, 0x00) := by
  have hplace : resolve c t = some (.reg, 0x00) := by
    rcases ht with rfl | rfl
    · rfl
    · exact resolve_baseReg c
  exact checkAccess_of_resolve hplace rfl (by simp [Config.size])

/-- The step of a host write that passes the checks: a violation while BUSY = 1 (R270), its effect otherwise (R61). -/
theorem step_write {s : State} {t : BusTarget} {bytes off : Nat} {v : Word} {r : Region} {rest : List Input}
    (hinputs : s.inputs = .write t bytes v :: rest) (haccess : checkAccess s.config t bytes = .ok (r, off)) :
    step s = if s.status.busy then .fault .hostWriteWhileBusy
      else .next (State.busStore { s with inputs := rest } r off bytes v) := by
  simp only [step, takeTurn, hinputs, hostWrite, haccess]

/-- Settles O8: the write passes the checks of an access to CMD, and its effect is the issue of the word. -/
theorem cmdWriteIssues : Obligations.CmdWriteIssues := by
  intro s t w rest htarget hinputs
  have hstep := step_write hinputs (checkAccess_cmd htarget)
  refine ⟨fun hidle => ?_, fun hbusy => ?_⟩
  · rw [hstep, hidle]
    rfl
  · rw [hstep, if_pos hbusy]

/-- A latched word that decode accepts runs its command (R212). -/
theorem step_of_decode_ok {s : State} {rest : List Input} {w : Word} {i : Instr} (h : engineNext s rest)
    (hw : s.latch = some w) (hi : decode w = .ok i) : step s = exec i { s with inputs := rest } := by
  rw [step_of_engineNext h]
  simp only [engineStep, hw, hi]

/-- OP = 0x00 admits no other bit (R94): no field of such a word is an operand. -/
theorem illegalWord_of_op_zero {w : Word} (hop : w.toNat % 256 = 0) (hw : w ≠ 0) : illegalWord w := by
  have hne : w.toNat ≠ 0 := fun h => hw (BitVec.eq_of_toNat_eq h)
  unfold illegalWord
  omega

/-- NOP's body writes nothing, so its completion is all it does (R210, R212). -/
theorem exec_nop (s : State) : ∃ d, exec .nop s = .next (completed s d) :=
  exec_of_body_ok rfl

/-- Settles O10: NOP's word is 0, it runs the empty body, and any other word with its opcode is illegal. -/
theorem nopCompletes : Obligations.NopCompletes := by
  refine ⟨by decide, fun w hop hw => ?_, exec_nop, fun s rest hnext hlatch => ?_⟩
  · exact decode_of_parse_eq_none (parse_of_illegal (illegalWord_of_op_zero hop hw))
  · rw [step_of_decode_ok hnext hlatch rfl]
    exact exec_nop _

end Sys2Proof.Machine
end

section
/-! The family of 60_exceptions.md: a failed command leaves its error's fields and nothing else (R224). -/

namespace Sys2Proof.Machine

open Sys2Proof.Claims

/-- t is the state s with a failed completion of t's own error code and nothing else changed, for the codes of the data
errors and for the others (R224). -/
def PreciseFailure (s t : State) : Prop :=
  (t.status.errCode = 0x04 ∨ t.status.errCode = 0x05 ∨ t.status.errCode = 0x06 →
    t = dataFailed s t.status.errCode t.draws) ∧
  (¬ (t.status.errCode = 0x04 ∨ t.status.errCode = 0x05 ∨ t.status.errCode = 0x06) →
    t = failed s t.status.errCode t.draws)

/-- The codes of the data errors (R220, R223). -/
theorem isDataError_iff_errorNumber (e : ErrorCode) :
    isDataError e = true ↔ errorNumber e = 0x04 ∨ errorNumber e = 0x05 ∨ errorNumber e = 0x06 := by
  cases e <;> decide

/-- Raising an error is a precise failure: its code tells whether it is a data error. -/
theorem preciseFailure_raise_spend (e : ErrorCode) (s : State) (k : Nat) :
    PreciseFailure s ((s.raise e).spend k) := by
  have hcode : ((s.raise e).spend k).status.errCode = errorNumber e := rfl
  rw [PreciseFailure, hcode, ← isDataError_iff_errorNumber, Bool.not_eq_true]
  exact ⟨fun he => raise_spend_eq_dataFailed he s k, fun he => raise_spend_eq_failed he s k⟩

/-- A command that leaves ERR = 1 raised an error, whatever its body is. -/
theorem raise_of_exec {i : Instr} {s t : State} (h : exec i s = .next t) (herr : t.status.err = true) :
    ∃ e k, t = (s.raise e).spend k := by
  rw [exec_eq_complete] at h
  cases hbody : commandBody i s with
  | error e => rw [hbody] at h; cases h; exact ⟨e, _, rfl⟩
  | ok u => rw [hbody] at h; cases h; cases herr

/-- A step on a latched word that leaves ERR = 1 raised an error: decode's own, or the command's. -/
theorem raise_of_engine_turn {s t : State} {rest : List Input} {w : Word} (hnext : engineNext s rest)
    (hlatch : s.latch = some w) (hstep : step s = .next t) (herr : t.status.err = true) :
    ∃ e k, t = (State.raise e { s with inputs := rest }).spend k := by
  cases hdecode : decode w with
  | error e =>
    rw [step_of_decode_error hnext hlatch hdecode] at hstep
    cases hstep
    exact ⟨e, 0, rfl⟩
  | ok i =>
    rw [step_of_decode_ok hnext hlatch hdecode] at hstep
    exact raise_of_exec hstep herr

/-- Settles O11: whether decode or a command fails, it raises an error, and raising is precise. -/
theorem failureIsPrecise : Obligations.FailureIsPrecise := by
  refine ⟨fun s t rest w hnext hlatch hstep herr => ?_, fun i s t hexec herr => ?_⟩
  · obtain ⟨e, k, rfl⟩ := raise_of_engine_turn hnext hlatch hstep herr
    exact preciseFailure_raise_spend e _ k
  · obtain ⟨e, k, rfl⟩ := raise_of_exec hexec herr
    exact preciseFailure_raise_spend e s k

end Sys2Proof.Machine
end

section
/-! The family of 70_reset_and_hazards.md: reset (R260) puts the state of R55 in place of any state. -/

namespace Sys2Proof.Machine

/-- The reset input acts alone: neither the latch nor BUSY is consulted (R260). -/
theorem step_reset {s : State} {rest : List Input} (h : s.inputs = .reset :: rest) :
    step s = .next (resetStep { s with inputs := rest }) := by
  unfold step takeTurn
  rw [h]

/-- STATUS reads as 0 after reset, BR_STATE included (R55). -/
theorem status_word_reset : Status.reset.word BitReader.reset.state = 0 := by decide

/-- Settles O47: the step is resetStep, whose fields are those of State.resetWith for s's own build. -/
theorem resetGivesR55 : Obligations.ResetGivesR55 := by
  intro s rest hinputs
  exact ⟨_, step_reset hinputs, status_word_reset, rfl, rfl, rfl, rfl, rfl, rfl, rfl, rfl, rfl, rfl,
    fun _ => ⟨rfl, rfl⟩, fun _ => List.getElem?_nil⟩

end Sys2Proof.Machine
end

section
/-! Decode and encode (30_encoding.md): each is the other's inverse on the legal words and the well-formed commands, and
the step runs what the latched word decodes to (R97, R100). -/

namespace Sys2Proof.Machine

open Sys2Proof.Claims

/-- The word of every well-formed command decodes to the command (R96, R100). -/
theorem parse_encode {i : Instr} (h : i.wf = true) : parse (encode i) = some i := by
  cases i with
  | rdbits n => exact parse_encode_rdbits (of_decide_eq_true h)
  | brInit src => cases src <;> decide
  | nop | scan | strip | rdbit | rdue | rdse => decide

/-- What a word decodes to is well-formed: N has 6 bits (R92). -/
theorem wf_of_parse {w : Word} {i : Instr} (h : parse w = some i) : i.wf = true := by
  obtain ⟨-, hi⟩ := (parse_eq_some_iff w i).mp h
  cases i with
  | rdbits n => cases hi; exact decide_eq_true (nField w).isLt
  | nop | scan | strip | brInit src | rdbit | rdue | rdse => rfl

/-- SRC's two values select different buffers (R93). -/
theorem source_ofBit_injective : ∀ a b : BitVec 1, Source.ofBit a = Source.ofBit b → a = b := by decide

/-- A command has one word: the opcode is the command's, each operand field is the command's operand, and every other
field is 0 (R94, R96). -/
theorem parse_injective {w v : Word} {i : Instr} (hw : parse w = some i) (hv : parse v = some i) : w = v := by
  obtain ⟨hselw, hoperandw⟩ := (parse_eq_some_iff w i).mp hw
  obtain ⟨hselv, hoperandv⟩ := (parse_eq_some_iff v i).mp hv
  rw [selects_iff i.row_mem_opcodeMap, strayField_eq_false_iff] at hselw hselv
  obtain ⟨hopw, hloww, hhighw, hnw, hsrcw⟩ := hselw
  obtain ⟨hopv, hlowv, hhighv, hnv, hsrcv⟩ := hselv
  have hn : nField w = nField v := by
    by_cases h5 : opField i.row.matchWord = 0x05
    · cases i with
      | rdbits n =>
        exact BitVec.eq_of_toNat_eq ((Instr.rdbits.inj hoperandw).symm.trans (Instr.rdbits.inj hoperandv))
      | nop | scan | strip | brInit src | rdbit | rdue | rdse => simp [Instr.row, opField] at h5
    · rw [hnw (hopw ▸ h5), hnv (hopv ▸ h5)]
  have hsrc : srcField w = srcField v := by
    by_cases h3 : opField i.row.matchWord = 0x03
    · cases i with
      | brInit src =>
        exact source_ofBit_injective _ _
          ((Instr.brInit.inj hoperandw).symm.trans (Instr.brInit.inj hoperandv))
      | nop | scan | strip | rdbit | rdbits n | rdue | rdse => simp [Instr.row, opField] at h3
    · rw [hsrcw (hopw ▸ h3), hsrcv (hopv ▸ h3)]
  exact (word_eq_iff_fields w v).mpr
    ⟨hopw.trans hopv.symm, hn, hloww.trans hlowv.symm, hsrc, hhighw.trans hhighv.symm⟩

/-- Settles O4: the row of each command is selected by its word, whose operand field is the command's. -/
theorem encodeThenParseIsIdentity : Obligations.EncodeThenParseIsIdentity :=
  fun _ => parse_encode

/-- Settles O5: a word and the word of its command decode to one command, which has one word. -/
theorem parseThenEncodeIsIdentity : Obligations.ParseThenEncodeIsIdentity :=
  fun _ _ h => ⟨wf_of_parse h, parse_injective (parse_encode (wf_of_parse h)) h⟩

/-- Settles O1: each of the twelve words is decoded. -/
theorem opcodeMapWordsDecode : Obligations.OpcodeMapWordsDecode := by
  unfold Obligations.OpcodeMapWordsDecode
  decide

/-- The engine's step on a word that stands for a command is the command, whose first check raises what decode does
(R97, log 8). -/
theorem engineStep_of_parse {s : State} {w : Word} {i : Instr} (hw : s.latch = some w) (hi : parse w = some i) :
    engineStep s = exec i s := by
  by_cases hlarge : i.countTooLarge = true
  · have hdecode : decode w = .error .operandRange := by simp only [decode, hi, if_pos hlarge]
    cases i with
    | rdbits n =>
      have hn : 32 < n := (Instr.countTooLarge_rdbits n).mp hlarge
      have hdraws : commandDraws (.rdbits n) s = 0 := if_pos hn
      simp only [engineStep, hw, hdecode, exec_eq_complete, commandBody_rdbits_of_lt hn, hdraws]
    | nop | scan | strip | brInit src | rdbit | rdue | rdse => cases hlarge
  · have hdecode : decode w = .ok i := by simp only [decode, hi, if_neg hlarge]
    simp only [engineStep, hw, hdecode]

/-- The state that withFetchWord makes is the one that the CMD write leaves, with the engine's turn before the rest. -/
theorem engineNext_withFetchWord (s : State) (w : Word) :
    engineNext (s.withFetchWord 32 w.toNat) s.inputs ∧ (s.withFetchWord 32 w.toNat).latch = some w ∧
      { s.withFetchWord 32 w.toNat with inputs := s.inputs } = issued s w := by
  have hword : BitVec.ofNat 32 (w.toNat % 2 ^ 32) = w := by
    rw [Nat.mod_eq_of_lt w.isLt, BitVec.ofNat_toNat, BitVec.setWidth_eq]
  refine ⟨Or.inl rfl, ?_, ?_⟩ <;> rw [State.withFetchWord, hword] <;> rfl

/-- Settles O6: an engine's turn is the engine's step, and withFetchWord is the CMD write with the engine next. -/
theorem stepRunsLatchedCommand : Obligations.StepRunsLatchedCommand := by
  refine ⟨fun s rest w i hnext hlatch hi => ?_, fun s w i hi => ?_⟩
  · exact (step_of_engineNext hnext).trans (engineStep_of_parse hlatch hi)
  · obtain ⟨hnext, hlatch, hissued⟩ := engineNext_withFetchWord s w
    rw [step_of_engineNext hnext, engineStep_of_parse (s := { s.withFetchWord 32 w.toNat with inputs := s.inputs })
      hlatch hi, hissued]

end Sys2Proof.Machine
end

section
/-! What a command's body can do, said once: the writes of each command, and the errors of each. -/

namespace Sys2Proof.Machine

open Sys2Proof.Claims

/-- A decoder of the slice's bits: it takes only bits that are left, and looks at no others (R129). -/
structure SliceDecoder (dec : (Nat → Bool) → Nat → Except ErrorCode (Nat × Nat)) : Prop where
  takes_le : ∀ {bit avail v n}, dec bit avail = .ok (v, n) → n ≤ avail
  congr : ∀ {bit bit' avail}, (∀ j, j < avail → bit j = bit' j) → dec bit avail = dec bit' avail

/-- A field of n bits is made of the n bits from the cursor on (R123). -/
theorem sliceDecoder_readFixed (n : Nat) : SliceDecoder (readFixed n) where
  takes_le h := (readFixed_ok h).1.trans_le (readFixed_ok h).2
  congr {bit bit' avail} h := by
    rcases Nat.lt_or_ge avail n with hlt | hle
    · rw [readFixed_of_lt hlt, readFixed_of_lt hlt]
    · rw [readFixed_of_le hle, readFixed_of_le hle, bitsValue_congr fun j hj => h (0 + j) (by omega)]

/-- The count of leading zeros ends before it looks past the end of the slice (R124). -/
theorem ueZeros_congr {bit bit' : Nat → Bool} {avail : Nat} (h : ∀ j, j < avail → bit j = bit' j) (k f : Nat) :
    ueZeros bit avail k f = ueZeros bit' avail k f := by
  induction f generalizing k with
  | zero =>
    by_cases hk : avail ≤ k
    · simp only [ueZeros, if_pos hk]
    · simp only [ueZeros, h k (by omega)]
  | succ f ih =>
    by_cases hk : avail ≤ k
    · simp only [ueZeros, if_pos hk]
    · simp only [ueZeros, h k (by omega), ih]

/-- A code and its faults show in the bits that are left (R124). -/
theorem sliceDecoder_readUe : SliceDecoder readUe where
  takes_le {bit avail v n} h := by
    rcases readUe_cases bit avail with ⟨k, h', -, hle, -⟩ | ⟨k, h', -⟩ | ⟨h', -⟩ | ⟨h', -⟩ <;> rw [h'] at h <;> cases h
    exact hle
  congr {bit bit' avail} h := by
    unfold readUe
    rw [ueZeros_congr h]
    split
    · rfl
    · split
      · rfl
      · rw [bitsValue_congr fun j hj => h _ (by omega)]

/-- A read command decodes the slice, but for a count of RDBITS that is too large (R120, R226). -/
theorem read_body {i : Instr} (hi : isRead i = true) :
    (∃ n, i = .rdbits n ∧ 32 < n) ∨
    ∃ dec f, SliceDecoder dec ∧ ∀ s, commandBody i s = s.readCommand dec f := by
  cases i with
  | nop | scan | strip | brInit src => cases hi
  | rdbit => exact Or.inr ⟨_, _, sliceDecoder_readFixed 1, fun _ => rfl⟩
  | rdbits n =>
    rcases Nat.lt_or_ge 32 n with hn | hn
    · exact Or.inl ⟨n, rfl, hn⟩
    · exact Or.inr ⟨_, _, sliceDecoder_readFixed n, commandBody_rdbits_of_le hn⟩
  | rdue | rdse => exact Or.inr ⟨_, _, sliceDecoder_readUe, fun _ => rfl⟩

/-- The writes of a successful STRIP (R190). -/
def State.stripped (s : State) : State :=
  { s with
    obuf := s.obuf.writeBytes 0 (strippedBytes s.rangeByte s.argLen)
    outLen := BitVec.ofNat 32 (strippedBytes s.rangeByte s.argLen).length }

/-- STRIP's body succeeds exactly when the range lies in IBUF and fits OBUF (R190). -/
theorem State.stripRange_eq_ok_iff {s u : State} : s.stripRange = .ok u ↔
    s.argOff + s.argLen ≤ s.config.ibufBytes ∧ s.argLen ≤ s.config.obufBytes ∧ u = s.stripped := by
  rcases s.stripRange_cases with ⟨hover, h⟩ | ⟨hin, hout, h⟩
  · rw [h]
    exact ⟨(nomatch ·), fun ⟨hin, hout, _⟩ => by omega⟩
  · simp [h, hin, hout, State.stripped, eq_comm]

/-- STRIP's error (R190). -/
theorem State.stripRange_eq_error_iff {s : State} {e : ErrorCode} : s.stripRange = .error e ↔
    (s.config.ibufBytes < s.argOff + s.argLen ∨ s.config.obufBytes < s.argLen) ∧ e = .operandRange := by
  rcases s.stripRange_cases with ⟨hover, h⟩ | ⟨hin, hout, h⟩
  · simp [h, hover, eq_comm]
  · simp [h, hin, hout]

/-- SCAN's two errors (R160, R167). -/
theorem State.scanRange_eq_error_iff {s : State} {e : ErrorCode} : s.scanRange = .error e ↔
    (s.config.ibufBytes < s.argOff + s.argLen ∧ e = .operandRange) ∨
    (s.argOff + s.argLen ≤ s.config.ibufBytes ∧ s.config.utabDepth < s.startCodes.length ∧ e = .unitTableFull) := by
  rcases s.scanRange_cases with ⟨hover, h⟩ | ⟨hfits, hfull, h⟩ | ⟨hfits, hroom, h⟩
  · simp [h, hover, eq_comm]
  · simp [h, hfits, hfull, eq_comm]
  · simp [h, hfits, hroom]

/-- What a command's body writes when it succeeds (R121, R160, R190, R210), a read but RESULT and the cursor nothing
(R120). -/
theorem commandBody_ok_cases {i : Instr} {s t : State} (h : commandBody i s = .ok t) :
    (i = .nop ∧ t = s) ∨
    (i = .scan ∧ t = s.scanned ∧ s.argOff + s.argLen ≤ s.config.ibufBytes ∧
      s.startCodes.length ≤ s.config.utabDepth) ∨
    (i = .strip ∧ t = s.stripped ∧ s.argOff + s.argLen ≤ s.config.ibufBytes ∧ s.argLen ≤ s.config.obufBytes) ∨
    (∃ src, i = .brInit src ∧ t = { s with br := s.initialReader src } ∧ s.argOff + s.argLen ≤ s.capacity src) ∨
    (isRead i = true ∧ s.br.state = .ready ∧ ∃ r n, n ≤ s.br.remaining ∧
      t = { s with result := r, br := BitReader.advance^[n] s.br }) := by
  by_cases hi : isRead i = true
  · refine Or.inr (Or.inr (Or.inr (Or.inr ⟨hi, ?_⟩)))
    rcases read_body hi with ⟨n, rfl, hn⟩ | ⟨dec, f, hdec, hread⟩
    · rw [commandBody_rdbits_of_lt hn] at h
      cases h
    · rw [hread] at h
      rcases s.readCommand_cases dec f with ⟨-, h'⟩ | ⟨-, e, -, h'⟩ | ⟨hs, v, n, hok, h'⟩ <;> rw [h'] at h <;> cases h
      exact ⟨hs, f v, n, hdec.takes_le hok, by rw [BitReader.advance_iterate]⟩
  · cases i with
    | nop => cases h; exact Or.inl ⟨rfl, rfl⟩
    | scan =>
      obtain ⟨hfits, hroom, ht⟩ := State.scanRange_eq_ok_iff.mp h
      exact Or.inr (Or.inl ⟨rfl, ht, hfits, hroom⟩)
    | strip =>
      obtain ⟨hin, hout, ht⟩ := State.stripRange_eq_ok_iff.mp h
      exact Or.inr (Or.inr (Or.inl ⟨rfl, ht, hin, hout⟩))
    | brInit src =>
      rcases Nat.lt_or_ge (s.capacity src) (s.argOff + s.argLen) with hover | hfits
      · rw [commandBody_brInit_of_lt hover] at h
        cases h
      · rw [commandBody_brInit_of_le hfits] at h
        cases h
        exact Or.inr (Or.inr (Or.inr (Or.inl ⟨src, rfl, rfl, hfits⟩)))
    | rdbit | rdbits n | rdue | rdse => exact absurd rfl hi

/-- A data error comes from a read in READY alone (R223). -/
theorem commandBody_dataError {i : Instr} {s : State} {e : ErrorCode} (h : commandBody i s = .error e)
    (he : isDataError e = true) : isRead i = true ∧ s.br.state = .ready := by
  by_cases hi : isRead i = true
  · refine ⟨hi, ?_⟩
    rcases read_body hi with ⟨n, rfl, hn⟩ | ⟨dec, f, -, hread⟩
    · rw [commandBody_rdbits_of_lt hn] at h
      cases h; cases he
    · rw [hread] at h
      rcases s.readCommand_cases dec f with ⟨-, h'⟩ | ⟨hs, -⟩ | ⟨hs, -⟩
      · rw [h'] at h
        cases h; cases he
      · exact hs
      · exact hs
  · exfalso
    cases i with
    | nop => cases h
    | scan => rcases State.scanRange_eq_error_iff.mp h with ⟨-, rfl⟩ | ⟨-, -, rfl⟩ <;> cases he
    | strip =>
      obtain ⟨-, rfl⟩ := State.stripRange_eq_error_iff.mp h
      cases he
    | brInit src =>
      rcases Nat.lt_or_ge (s.capacity src) (s.argOff + s.argLen) with hover | hfits
      · rw [commandBody_brInit_of_lt hover] at h
        cases h; cases he
      · rw [commandBody_brInit_of_le hfits] at h
        cases h
    | rdbit | rdbits n | rdue | rdse => exact hi rfl

/-- What a command completes to: its body's writes (R212), or its body's error (R224). -/
theorem exec_cases {i : Instr} {s t : State} (h : exec i s = .next t) :
    (∃ u d, commandBody i s = .ok u ∧ t = completed u d) ∨
    (∃ e k, commandBody i s = .error e ∧ t = (s.raise e).spend k) := by
  rw [exec_eq_complete] at h
  cases hbody : commandBody i s with
  | error e => rw [hbody] at h; cases h; exact Or.inr ⟨e, _, rfl, rfl⟩
  | ok u => rw [hbody] at h; cases h; exact Or.inl ⟨u, _, rfl, rfl⟩

end Sys2Proof.Machine
end

section
/-! The completion of commands (R212, R214), their footprints, and the states of the BitReader (R28, R225). -/

namespace Sys2Proof.Machine

open Sys2Proof.Claims

/-- Settles O9: the body of a command answers its writes or an error, and both complete the command. -/
theorem everyCommandCompletes : Obligations.EveryCommandCompletes := by
  intro i s
  refine ⟨_, exec_eq_complete i s, ?_⟩
  cases commandBody i s with
  | error e => exact ⟨rfl, rfl, rfl, iff_of_true rfl (errorNumber_ne_zero e), errorNumber_le e⟩
  | ok t => exact ⟨rfl, rfl, rfl, iff_of_false Bool.false_ne_true (not_not.mpr rfl), Nat.zero_le _⟩

/-- An error that is no data error leaves BR (R224). -/
theorem State.raise_br_of_not_dataError {e : ErrorCode} (he : isDataError e = false) (s : State) :
    (s.raise e).br = s.br := by
  simp [he]

/-- A command that is no read raises no data error, and so leaves BR when it fails (R223). -/
theorem raise_br_of_not_read {i : Instr} {s : State} {e : ErrorCode} (h : commandBody i s = .error e)
    (hi : isRead i = false) : (s.raise e).br = s.br := by
  refine State.raise_br_of_not_dataError (Bool.eq_false_iff.mpr fun he => ?_) s
  rw [(commandBody_dataError h he).1] at hi
  cases hi

section
variable (n : Nat) (br : BitReader)

/-! Advancing the cursor leaves the slice and the state. -/

@[simp] theorem BitReader.advance_iterate_base : (BitReader.advance^[n] br).base = br.base := by
  rw [BitReader.advance_iterate, BitReader.setConsumed_base]

@[simp] theorem BitReader.advance_iterate_size : (BitReader.advance^[n] br).size = br.size := by
  rw [BitReader.advance_iterate, BitReader.setConsumed_size]

@[simp] theorem BitReader.advance_iterate_src : (BitReader.advance^[n] br).src = br.src := by
  rw [BitReader.advance_iterate, BitReader.setConsumed_src]

@[simp] theorem BitReader.advance_iterate_state : (BitReader.advance^[n] br).state = br.state := by
  rw [BitReader.advance_iterate, BitReader.setConsumed_state]

end

/-- Settles O12: a failed command writes STATUS and BR's state, and a successful one what its body writes. -/
theorem commandFootprints : Obligations.CommandFootprints := by
  intro i s t hexec
  rcases exec_cases hexec with ⟨u, d, hbody, rfl⟩ | ⟨e, k, hbody, rfl⟩
  · obtain ⟨hconfig, harg0, harg1, hibuf, -, hinputs, hreadData, -⟩ := commandBody_keeps hbody
    refine ⟨⟨hconfig, harg0, harg1, hibuf, hinputs, hreadData⟩, ?_⟩
    rcases commandBody_ok_cases hbody with ⟨rfl, rfl⟩ | ⟨rfl, rfl, -⟩ | ⟨rfl, rfl, -⟩ | ⟨src, rfl, rfl, -⟩ |
      ⟨hi, -, r, n, -, rfl⟩
    · simp [completed, isRead]
    · simp [completed, isRead, State.scanned]
    · simp [completed, isRead, State.stripped]
    · simp [completed, isRead]
    · refine ⟨fun h => ?_, fun _ => ⟨rfl, rfl, rfl, rfl, rfl⟩, fun _ => ⟨rfl, rfl⟩, fun h => ?_,
        fun _ => ⟨BitReader.advance_iterate_base n _, BitReader.advance_iterate_size n _,
          BitReader.advance_iterate_src n _⟩⟩
      · simp [completed, hi] at h
      · rcases h with rfl | rfl | rfl <;> cases hi
  · obtain ⟨hbase, hsize, -, -, hsrc⟩ := State.raise_br_fields e s
    refine ⟨⟨rfl, rfl, rfl, rfl, rfl, rfl⟩, fun _ => rfl, fun _ => ⟨rfl, rfl, rfl, rfl, rfl⟩, fun _ => ⟨rfl, rfl⟩,
      fun h => ?_, fun _ => ⟨hbase, hsize, hsrc⟩⟩
    exact raise_br_of_not_read hbody (by rcases h with rfl | rfl | rfl <;> rfl)

/-- Settles O13: of the bodies that succeed, BR_INIT's alone writes BR's state; of the errors, the data errors do. -/
theorem readerStateChanges : Obligations.ReaderStateChanges := by
  intro i s t hexec hchange
  rcases exec_cases hexec with ⟨u, d, hbody, rfl⟩ | ⟨e, k, hbody, rfl⟩
  · left
    rcases commandBody_ok_cases hbody with ⟨-, rfl⟩ | ⟨-, rfl, -⟩ | ⟨-, rfl, -⟩ | ⟨src, rfl, rfl, -⟩ |
      ⟨-, -, r, n, -, rfl⟩
    · exact absurd rfl hchange
    · exact absurd rfl hchange
    · exact absurd rfl hchange
    · exact ⟨⟨src, rfl⟩, rfl, rfl⟩
    · exact absurd (BitReader.advance_iterate_state n s.br) hchange
  · right
    have he : isDataError e = true := by
      by_contra hne
      exact hchange (congrArg BitReader.state (State.raise_br_of_not_dataError (Bool.eq_false_iff.mpr hne) s))
    obtain ⟨hi, hs⟩ := commandBody_dataError hbody he
    exact ⟨hi, hs, by simp [he], rfl, (isDataError_iff_errorNumber e).mp he⟩

/-- Settles O14: a read needs READY, so in FAILED it raises ReaderNotReady, which leaves BR. -/
theorem failedReaderNeedsBrInit : Obligations.FailedReaderNeedsBrInit := by
  refine ⟨fun i s t hs hexec => ?_, fun i s hs hi hcount => ?_⟩
  · have hnot : s.br.state ≠ .ready := by rw [hs]; decide
    rcases exec_cases hexec with ⟨u, d, hbody, rfl⟩ | ⟨e, k, hbody, rfl⟩
    · rcases commandBody_ok_cases hbody with ⟨-, rfl⟩ | ⟨-, rfl, -⟩ | ⟨-, rfl, -⟩ | ⟨src, rfl, rfl, -⟩ | ⟨-, hs', -⟩
      · exact Or.inl rfl
      · exact Or.inl rfl
      · exact Or.inl rfl
      · exact Or.inr ⟨⟨src, rfl⟩, rfl⟩
      · exact absurd hs' hnot
    · refine Or.inl (State.raise_br_of_not_dataError (Bool.eq_false_iff.mpr fun he => ?_) s)
      exact hnot (commandBody_dataError hbody he).2
  · rcases read_body hi with ⟨n, rfl, hn⟩ | ⟨dec, f, -, hread⟩
    · exact absurd (hcount n rfl) (by omega)
    · exact exec_read_not_ready (hread s) (by rw [hs]; decide)

end Sys2Proof.Machine
end

section
/-! The invariants (Safety): they hold after reset, and the engine's step, a host access, a poll and the reset input
keep them. -/

namespace Sys2Proof.Machine

open Sys2Proof.Claims

/-- The invariants hold after reset, in every build that R6 admits (R55). -/
theorem inv_resetWith {c : Config} (hc : c.Valid) : (State.resetWith c).Inv where
  config := hc
  ibufWf := List.Pairwise.nil
  ibufBelow := List.forall_mem_nil _
  obufWf := List.Pairwise.nil
  obufBelow := List.forall_mem_nil _
  reader := ⟨Nat.zero_le _, Nat.le_refl _, fun _ => rfl⟩
  busyIsLatched := rfl
  notBoth := fun h => Bool.noConfusion h.1
  errIsCode := iff_of_false Bool.false_ne_true (not_not.mpr rfl)
  errCodeRange := Nat.zero_le _
  busyNoErr := fun _ => rfl
  shortIsNosc := fun h => Bool.noConfusion h
  utabFits := Nat.zero_le _
  utabHeaders := List.forall_mem_nil _
  unitsWritten := Nat.zero_le _
  noUnits := iff_of_true rfl rfl
  outLenFits := Nat.zero_le _

/-- Settles O48: nothing is written after reset, and the build of the vectors is admitted. -/
theorem invariantsAfterReset : Obligations.InvariantsAfterReset :=
  ⟨fun _ => inv_resetWith, inv_resetWith (by decide)⟩

namespace State.Inv

variable {s : State}

/-- The invariants say nothing of the outside: what is pending, what the host last read, and the free values. -/
theorem outside (h : s.Inv) (xs : List Input) (r : Option Word) (k d n : Nat) :
    ({ s with inputs := xs, readData := r, stream := k, draws := d, resets := n } : State).Inv :=
  { h with }

/-- The issue of a command shows the latch in BUSY and clears DONE and the error (R211). -/
theorem issue (h : s.Inv) (w : Word) : (s.issue w).Inv :=
  { h with
    busyIsLatched := rfl
    notBoth := fun hb => Bool.noConfusion hb.2
    errIsCode := iff_of_false Bool.false_ne_true (not_not.mpr rfl)
    errCodeRange := Nat.zero_le _
    busyNoErr := fun _ => rfl }

/-- A successful completion empties the latch and shows DONE (R212). -/
theorem succeed (h : s.Inv) (k : Nat) : (s.succeed.spend k).Inv :=
  { h with
    busyIsLatched := rfl
    notBoth := fun hb => Bool.noConfusion hb.1
    errIsCode := iff_of_false Bool.false_ne_true (not_not.mpr rfl)
    errCodeRange := Nat.zero_le _
    busyNoErr := fun _ => rfl }

/-- An error empties the latch, shows DONE and its code, and moves nothing of BR but its state (R224). -/
theorem raise (h : s.Inv) (e : ErrorCode) (k : Nat) : ((s.raise e).spend k).Inv :=
  { h with
    reader := by
      obtain ⟨hbase, hsize, hbyte, hbit, hsrc⟩ := State.raise_br_fields e s
      change (s.raise e).br.wf (s.capacity (s.raise e).br.src)
      simpa only [BitReader.wf, hbase, hsize, hbyte, hbit, hsrc] using h.reader
    busyIsLatched := rfl
    notBoth := fun hb => Bool.noConfusion hb.1
    errIsCode := iff_of_true rfl (errorNumber_ne_zero e)
    errCodeRange := errorNumber_le e
    busyNoErr := fun hb => Bool.noConfusion hb }

end State.Inv

/-- The header of a unit fits its length: its first byte, or EMPTY (R46, R163). -/
theorem unitEntry_wf (rd : Nat → Nat → Byte) (k start : Nat) {stop : Nat} (hstop : stop < 2 ^ 32) :
    (unitEntry rd k start stop).wf := by
  have hlen : (unitEntry rd k start stop).len.toNat = stop - start := Nat.mod_eq_of_lt (by omega)
  by_cases hbyte : 1 ≤ stop - start
  · refine Or.inr ⟨fun h0 => ?_, ?_⟩
    · rw [h0] at hlen
      exact absurd hlen (show 0 ≠ stop - start by omega)
    · have hb := (rd k start).isLt
      simp only [unitEntry, if_pos hbyte, BitVec.toNat_setWidth]
      omega
  · exact Or.inl ⟨BitVec.eq_of_toNat_eq (hlen.trans (show stop - start = 0 by omega)), if_neg hbyte⟩

/-- A unit ends inside the range (R162). -/
theorem unitEnd_le {len : Nat} {codes : List StartCode} (h : ∀ c ∈ codes, c.index ≤ len) : unitEnd len codes ≤ len := by
  cases codes with
  | nil => exact Nat.le_refl _
  | cons c rest => exact h c List.mem_cons_self

/-- Every unit of start codes inside the range has a header that fits it (R46). -/
theorem unitsOf_wf (rd : Nat → Nat → Byte) {len : Nat} (hlen : len < 2 ^ 32) {codes : List StartCode}
    (h : ∀ c ∈ codes, c.index ≤ len) (j : Nat) : ∀ e ∈ unitsOf rd len j codes, e.wf := by
  induction codes generalizing j with
  | nil => exact List.forall_mem_nil _
  | cons c rest ih =>
    have hrest (d : StartCode) (hd : d ∈ rest) : d.index ≤ len := h d (List.mem_cons_of_mem _ hd)
    exact List.forall_mem_cons.mpr ⟨unitEntry_wf rd _ _ ((unitEnd_le hrest).trans_lt hlen), ih hrest (j + 1)⟩

/-- A start code lies inside the range, whatever the margin. -/
theorem State.startCodes_index_le {s : State} {c : StartCode} (hc : c ∈ s.startCodes) : c.index ≤ s.argLen := by
  obtain ⟨-, hend, -⟩ := findStartCodes_mem hc
  omega

namespace State.Inv

variable {s : State}

/-- A SCAN writes units that fit their headers over the first entries, and counts them (R160, R166). -/
theorem scanned (h : s.Inv) (hroom : s.startCodes.length ≤ s.config.utabDepth) : s.scanned.Inv := by
  obtain ⟨-, -, ⟨-, hdepth⟩, hmargin, -⟩ := h.config
  have hcount := State.scanned_unitCount_toNat hdepth hroom
  have hunits : s.scanUnits.length = s.startCodes.length := unitsOf_length _ _ _ _
  have htable : s.scanned.utab.length = s.scanUnits.length + (s.utab.length - s.scanUnits.length) := by
    simp [State.scanned]
  have hfits := h.utabFits
  exact { h with
    shortIsNosc := fun hshort => List.isEmpty_iff.mpr (State.startCodes_of_short (of_decide_eq_true hshort))
    utabFits := htable.trans_le (show _ ≤ s.config.utabDepth by omega)
    utabHeaders := fun e he => by
      rcases List.mem_append.mp he with hnew | hold
      · exact unitsOf_wf _ s.arg1.isLt (fun c => State.startCodes_index_le) 0 e hnew
      · exact h.utabHeaders e (List.mem_of_mem_drop hold)
    unitsWritten := by rw [hcount, htable]; omega
    noUnits := by
      refine Iff.trans ?_ (lastStart_eq_none_iff fun c => State.startCodes_index_lt hmargin).symm
      rw [← BitVec.toNat_inj, hcount]
      exact List.length_eq_zero_iff }

/-- A STRIP writes the first bytes of OBUF, as many as OUT_LEN says (R190). -/
theorem stripped (h : s.Inv) (hout : s.argLen ≤ s.config.obufBytes) : s.stripped.Inv := by
  have hlength := strippedBytes_length_le s.rangeByte s.argLen
  exact { h with
    obufWf := Memory.writeBytes_wf h.obufWf _ _
    obufBelow := Memory.writeBytes_below h.obufBelow ((Nat.zero_add _).trans_le (hlength.trans hout))
    outLenFits := (Nat.mod_le _ _).trans (hlength.trans hout) }

/-- BR_INIT points the reader at the start of a slice inside its buffer (R121). -/
theorem brInit (h : s.Inv) {src : Source} (hfits : s.argOff + s.argLen ≤ s.capacity src) :
    ({ s with br := s.initialReader src } : State).Inv :=
  { h with reader := ⟨hfits, Nat.zero_le _, fun _ => rfl⟩ }

/-- A read advances the cursor by bits that are left (R127). -/
theorem read (h : s.Inv) (r : Word) {n : Nat} (hn : n ≤ s.br.remaining) :
    ({ s with result := r, br := BitReader.advance^[n] s.br } : State).Inv :=
  { h with
    reader := by
      change (BitReader.advance^[n] s.br).wf (s.capacity (BitReader.advance^[n] s.br).src)
      rw [BitReader.advance_iterate_src]
      exact (BitReader.advance_iterate_keeps h.reader hn).1 }

/-- The writes of a command that succeeds keep the invariants, before its completion. -/
theorem commandBody (h : s.Inv) {i : Instr} {t : State} (hbody : commandBody i s = .ok t) : t.Inv := by
  rcases commandBody_ok_cases hbody with ⟨-, rfl⟩ | ⟨-, rfl, -, hroom⟩ | ⟨-, rfl, -, hout⟩ | ⟨src, -, rfl, hfits⟩ |
    ⟨-, -, r, n, hn, rfl⟩
  · exact h
  · exact h.scanned hroom
  · exact h.stripped hout
  · exact h.brInit hfits
  · exact h.read r hn

/-- The engine's step keeps the invariants (R212, R224). -/
theorem engineStep (h : s.Inv) {t : State} (hstep : engineStep s = .next t) : t.Inv := by
  rcases engineStep_cases s with ⟨-, e⟩ | ⟨w, e, -, -, e'⟩ | ⟨w, i, -, -, e'⟩
  · rw [e] at hstep; cases hstep; exact h
  · rw [e'] at hstep; cases hstep; exact h.raise e 0
  · rw [e'] at hstep; cases hstep
    cases hbody : Machine.commandBody i s with
    | error e => exact h.raise e _
    | ok u => exact (h.commandBody hbody).succeed _

/-- An accepted host write stays inside its region, and of the registers it writes ARG0, ARG1 or issues a command
(R61). -/
theorem busStore (h : s.Inv) {r : Region} {off bytes : Nat} (hend : off + bytes ≤ s.config.size r) (v : Word) :
    (s.busStore r off bytes v).Inv := by
  cases r with
  | reg =>
    simp only [State.busStore]
    cases regAt off with
    | cmd => exact h.issue v
    | arg0 | arg1 => exact { h with }
    | status | result | unitCount | lastSc | outLen | brBase | brSize | brByte | brBit | brSrc | capIbuf | capObuf
      | capUtab | reserved => exact h
  | utab => exact h
  | ibuf =>
    exact { h with
      ibufWf := Memory.writeBytes_wf h.ibufWf _ _
      ibufBelow := Memory.writeBytes_below h.ibufBelow (by rwa [wordBytes_length]) }
  | obuf =>
    exact { h with
      obufWf := Memory.writeBytes_wf h.obufWf _ _
      obufBelow := Memory.writeBytes_below h.obufBelow (by rwa [wordBytes_length]) }

end State.Inv

/-- Settles O49: each of the six kinds of step keeps the invariants. -/
theorem stepKeepsInvariants : Obligations.StepKeepsInvariants := by
  intro s t h hstep
  have hnext (rest : List Input) (r : Option Word) : ({ s with inputs := rest, readData := r } : State).Inv :=
    h.outside rest r s.stream s.draws s.resets
  rcases step_cases s with ⟨-, e⟩ | ⟨rest, -, e⟩ | ⟨g, b, rest, -, e⟩ | ⟨g, b, v, rest, -, e⟩ | ⟨rest, -, e⟩ |
    ⟨rest, -, e⟩ <;> rw [e] at hstep
  · exact h.engineStep hstep
  · exact (hnext rest s.readData).engineStep hstep
  · rcases hostRead_cases g b { s with inputs := rest } with ⟨f, -, e⟩ | ⟨r, off, -, e⟩ <;> rw [e] at hstep <;>
      cases hstep
    exact h.outside rest _ _ _ _
  · rcases hostWrite_cases g b v { s with inputs := rest } with ⟨f, -, e⟩ | ⟨r, off, hcheck, ⟨-, e⟩ | ⟨-, e⟩⟩ <;>
      rw [e] at hstep <;> cases hstep
    obtain ⟨-, -, hend⟩ := checkAccess_ok hcheck
    exact (hnext rest s.readData).busStore hend v
  · unfold waitStep at hstep
    split at hstep
    · cases hstep
      exact hnext rest _
    · exact (hnext s.inputs _).engineStep hstep
  · cases hstep
    exact (inv_resetWith h.config).outside _ _ _ _ _

end Sys2Proof.Machine
end

section
/-! The reads of the BitReader (R9, R126, R129): the exp-Golomb codes of the vectors, the ranges of the results, and the
bits a read looks at. -/

namespace Sys2Proof.Machine

open Sys2Proof.Claims

/-- Settles O16: the bits before the cursor are `8 * byte + bit` (R41). -/
theorem streamBitOrder : Obligations.StreamBitOrder :=
  fun _ _ _ => State.streamBit_of_lookup

/-- k zeros, a 1, and v in k bits, the most significant first: the shape of every exp-Golomb code (R124). -/
def ueBits (k v : Nat) : List Bool :=
  List.replicate k false ++ true :: (List.range k).map (fun j => v.testBit (k - 1 - j))

theorem ueBits_length (k v : Nat) : (ueBits k v).length = 2 * k + 1 := by
  simp only [ueBits, List.length_append, List.length_replicate, List.length_cons, List.length_map, List.length_range]
  omega

theorem ueBits_zero {k j : Nat} (hj : j < k) (v : Nat) : (ueBits k v)[j]? = some false := by
  rw [ueBits, List.getElem?_append_left (by simpa using hj), List.getElem?_replicate_of_lt hj]

theorem ueBits_one (k v : Nat) : (ueBits k v)[k]? = some true := by
  simp [ueBits]

theorem ueBits_suffix {k j : Nat} (hj : j < k) (v : Nat) :
    (ueBits k v)[k + 1 + j]? = some (v.testBit (k - 1 - j)) := by
  rw [ueBits, List.getElem?_append_right (by rw [List.length_replicate]; omega), List.length_replicate,
    show k + 1 + j - k = j + 1 by omega, List.getElem?_cons_succ]
  simp [hj]

/-- A slice that goes on with such a code has each of its parts. -/
theorem holds_ueBits_iff {s : State} {k v : Nat} : Holds s (ueBits k v) ↔
    2 * k + 1 ≤ s.br.remaining ∧ (∀ j, j < k → s.streamBit j = false) ∧ s.streamBit k = true ∧
      ∀ j, j < k → v.testBit (k - 1 - j) = s.streamBit (k + 1 + j) := by
  rw [Holds, ueBits_length]
  refine and_congr_right fun _ =>
    ⟨fun h => ⟨fun j hj => ?_, ?_, fun j hj => ?_⟩, fun ⟨hzeros, hone, hsuffix⟩ j hj => ?_⟩
  · exact Option.some.inj ((h j (by omega)).symm.trans (ueBits_zero hj v))
  · exact Option.some.inj ((h k (by omega)).symm.trans (ueBits_one k v))
  · exact Option.some.inj ((ueBits_suffix hj v).symm.trans (h _ (by omega)))
  · rcases lt_trichotomy j k with hlt | rfl | hgt
    · rw [ueBits_zero hlt, hzeros j hlt]
    · rw [ueBits_one, hone]
    · obtain ⟨i, rfl⟩ := Nat.exists_eq_add_of_lt hgt
      rw [show k + i + 1 = k + 1 + i by omega, ueBits_suffix (by omega), hsuffix i (by omega)]

/-- The number of leading zeros of the code of a codeNum (R124). -/
theorem log2_codeNum {k v : Nat} (hv : v < 2 ^ k) : Nat.log2 (2 ^ k - 1 + v + 1) = k := by
  have hpos := Nat.two_pow_pos k
  rw [Nat.log2_eq_iff (by omega), Nat.pow_succ]
  omega

/-- The codes of R124 are those that the vectors encode, of up to 31 leading zeros (R126). -/
theorem ueCode_iff_holds {s : State} {k c : Nat} :
    UeCode s k c ↔ k = Nat.log2 (c + 1) ∧ k ≤ 31 ∧ Holds s (encodeUe c) := by
  have hcode (c : Nat) : encodeUe c = ueBits (Nat.log2 (c + 1)) (c + 1 - 2 ^ Nat.log2 (c + 1)) := rfl
  constructor
  · rintro ⟨hk, hlen, hzeros, hone, v, hv, hsuffix, rfl⟩
    have hpos := Nat.two_pow_pos k
    refine ⟨(log2_codeNum hv).symm, hk, ?_⟩
    rw [hcode, log2_codeNum hv, show 2 ^ k - 1 + v + 1 - 2 ^ k = v by omega]
    exact holds_ueBits_iff.mpr ⟨hlen, hzeros, hone, hsuffix⟩
  · rintro ⟨rfl, hk, hholds⟩
    rw [hcode, holds_ueBits_iff] at hholds
    obtain ⟨hlen, hzeros, hone, hsuffix⟩ := hholds
    obtain ⟨hle, hlt⟩ := (Nat.log2_eq_iff (show c + 1 ≠ 0 by omega)).mp rfl
    rw [Nat.pow_succ] at hlt
    have hpos := Nat.two_pow_pos (Nat.log2 (c + 1))
    exact ⟨hk, hlen, hzeros, hone, _, by omega, hsuffix, by omega⟩

/-- Every codeNum up to 2^32 - 2 has a code of up to 31 leading zeros (R126). -/
theorem ueCode_of_holds {s : State} {m : Nat} (hm : m ≤ 2 ^ 32 - 2) (h : Holds s (encodeUe m)) :
    UeCode s (Nat.log2 (m + 1)) m :=
  ueCode_iff_holds.mpr ⟨rfl, Nat.le_of_lt_succ ((Nat.log2_lt (Nat.succ_ne_zero m)).mpr (by omega)), h⟩

/-- No code has a larger codeNum (R126). -/
theorem codeNum_le {s : State} {k c : Nat} (h : UeCode s k c) : c ≤ 2 ^ 32 - 2 := by
  obtain ⟨hk, -, -, -, v, hv, -, rfl⟩ := h
  have hpow : 2 ^ k ≤ 2 ^ 31 := Nat.pow_le_pow_right (by decide) hk
  omega

/-- Settles O22: the vectors' code of a codeNum is a code of it. -/
theorem ueRoundTrip : Obligations.UeRoundTrip :=
  fun _ _ hs hm hholds => exec_read_ueCode rfl hs (ueCode_of_holds hm hholds)

section
variable {i : Instr} {s t : State} {dec : (Nat → Bool) → Nat → Except ErrorCode (Nat × Nat)} {f : Nat → Word}

/-- A read that leaves ERR = 0 leaves in RESULT the value that its decoder answered. -/
theorem read_result_of_exec (hread : commandBody i s = s.readCommand dec f) (hexec : exec i s = .next t)
    (herr : t.status.err = false) : ∃ v n, dec s.streamBit s.br.remaining = .ok (v, n) ∧ t.result = f v := by
  obtain ⟨u, d, hbody, rfl⟩ := body_ok_of_exec hexec herr
  rw [hread] at hbody
  rcases s.readCommand_cases dec f with ⟨-, h⟩ | ⟨-, e, -, h⟩ | ⟨-, v, n, hdec, h⟩ <;> rw [h] at hbody <;> cases hbody
  exact ⟨v, n, hdec, rfl⟩

/-- A read of a field leaves its bits in RESULT (R123). -/
theorem fixed_read_result {n : Nat} (hread : commandBody i s = s.readCommand (readFixed n) f)
    (hexec : exec i s = .next t) (herr : t.status.err = false) : t.result = f (bitsValue s.streamBit 0 n) := by
  obtain ⟨v, m, hdec, hresult⟩ := read_result_of_exec hread hexec herr
  rcases readFixed_cases n s.streamBit s.br.remaining with ⟨h, -⟩ | ⟨h, -⟩ <;> rw [h] at hdec <;> cases hdec
  exact hresult

/-- A read of an exp-Golomb code leaves the reading of its codeNum in RESULT (R124, R125). -/
theorem ue_read_result (hread : commandBody i s = s.readCommand readUe f) (hexec : exec i s = .next t)
    (herr : t.status.err = false) : ∃ k c, UeCode s k c ∧ t.result = f c := by
  obtain ⟨c, n, hdec, hresult⟩ := read_result_of_exec hread hexec herr
  obtain ⟨k, hcode, -⟩ := ueCode_of_readUe hdec
  exact ⟨k, c, hcode, hresult⟩

end

/-- A codeNum fits RESULT (R30, R126). -/
theorem unsignedResult_codeNum {s : State} {k c : Nat} (h : UeCode s k c) : (unsignedResult c).toNat = c := by
  have hc := codeNum_le h
  exact Nat.mod_eq_of_lt (by omega)

/-- A signed value that RDSE can give fits RESULT in two's complement (R125). -/
theorem ofInt_toInt {v : Int} (hlow : -(2 ^ 31 - 1) ≤ v) (hhigh : v ≤ 2 ^ 31 - 1) : (BitVec.ofInt 32 v).toInt = v :=
  BitVec.toInt_ofInt_eq_self (by decide) (by omega) (by omega)

/-- The signed values of the codeNums (R126). -/
theorem seValue_bounds {c : Nat} (hc : c ≤ 2 ^ 32 - 2) : -(2 ^ 31 - 1) ≤ seValue c ∧ seValue c ≤ 2 ^ 31 - 1 := by
  unfold seValue
  split <;> omega

/-- Settles O23: what `ue()` accepts is a code, and codes are the vectors'. -/
theorem ueAcceptsOnlyItsCode : Obligations.UeAcceptsOnlyItsCode := by
  intro s t hexec herr
  obtain ⟨k, c, hcode, hresult⟩ := ue_read_result rfl hexec herr
  obtain ⟨-, -, hholds⟩ := ueCode_iff_holds.mp hcode
  rw [hresult, unsignedResult_codeNum hcode]
  exact ⟨codeNum_le hcode, hholds⟩

/-- The codeNum of a signed value, as `senc` has it (95_test_vectors.md). -/
def seCodeNum (v : Int) : Nat := (if 0 < v then 2 * v - 1 else -2 * v).toNat

/-- `senc` inverts R125's mapping. -/
theorem seValue_seCodeNum (v : Int) : seValue (seCodeNum v) = v := by
  unfold seValue seCodeNum
  split_ifs <;> omega

/-- The codeNum of a signed value in range is in range (R126). -/
theorem seCodeNum_le {v : Int} (hlow : -(2 ^ 31 - 1) ≤ v) (hhigh : v ≤ 2 ^ 31 - 1) : seCodeNum v ≤ 2 ^ 32 - 2 := by
  unfold seCodeNum
  split_ifs <;> omega

/-- Settles O24: the code of v is that of its codeNum, which RDSE reads back as v. -/
theorem seRoundTrip : Obligations.SeRoundTrip := by
  intro s v hs hlow hhigh hholds
  have hcode : UeCode s _ (seCodeNum v) := ueCode_of_holds (seCodeNum_le hlow hhigh) hholds
  obtain ⟨d, hexec⟩ := exec_read_ueCode (i := .rdse) (f := signedResult) rfl hs hcode
  have hresult : signedResult (seCodeNum v) = BitVec.ofInt 32 v := by rw [signedResult, seValue_seCodeNum]
  exact ⟨_, hexec, rfl, hresult, (congrArg BitVec.toInt hresult).trans (ofInt_toInt hlow hhigh)⟩

/-- Settles O25: a field has its bits, and a codeNum is at most 2^32 - 2. -/
theorem readResultsInRange : Obligations.ReadResultsInRange := by
  intro s t herr
  refine ⟨fun hexec => ?_, fun n hexec => ?_, fun hexec => ?_, fun hexec => ?_⟩
  · rw [fixed_read_result (f := unsignedResult) rfl hexec herr, unsignedResult_bitsValue_toNat _ (by decide)]
    exact Nat.le_of_lt_succ (bitsValue_lt _ _ 1)
  · have hn := rdbits_count_le hexec herr
    rw [fixed_read_result (commandBody_rdbits_of_le hn s) hexec herr, unsignedResult_bitsValue_toNat _ hn]
    exact ⟨hn, Nat.le_pred_of_lt (bitsValue_lt _ _ n)⟩
  · obtain ⟨k, c, hcode, hresult⟩ := ue_read_result rfl hexec herr
    rw [hresult, unsignedResult_codeNum hcode]
    exact codeNum_le hcode
  · obtain ⟨k, c, hcode, hresult⟩ := ue_read_result rfl hexec herr
    obtain ⟨hlow, hhigh⟩ := seValue_bounds (codeNum_le hcode)
    rw [hresult, signedResult, ofInt_toInt hlow hhigh]
    exact ⟨hlow, hhigh⟩

/-- The bit t of those that are left is in a byte of the slice (R42). -/
theorem BitReader.byte_of_remaining {br : BitReader} {t : Nat} (h : t < br.remaining) :
    (br.consumed + t) / 8 < br.size.toNat := by
  unfold BitReader.remaining at h
  omega

/-- On a written slice the bits after n advances are the bits from the n-th on. -/
theorem State.streamBit_advance {s t : State} {n j : Nat} (hwf : s.br.wf (s.capacity s.br.src))
    (hwritten : sliceWritten s) (hbr : t.br = BitReader.advance^[n] s.br)
    (hbuffer : t.buffer s.br.src = s.buffer s.br.src) (hleft : n + j < s.br.remaining) :
    t.streamBit j = s.streamBit (n + j) := by
  obtain ⟨b, hb⟩ := Option.isSome_iff_exists.mp (hwritten _ (BitReader.byte_of_remaining hleft))
  obtain ⟨-, hconsumed, -⟩ := BitReader.advance_iterate_keeps hwf (show n ≤ s.br.remaining by omega)
  rw [State.streamBit_of_lookup hb, State.streamBit_of_lookup (s := t) (b := b) ?_, hbr, hconsumed, Nat.add_assoc]
  rwa [hbr, BitReader.advance_iterate_src, hbuffer, BitReader.advance_iterate_base, hconsumed, Nat.add_assoc]

/-- Settles O27: the last of n + 1 bits is the first after n. -/
theorem rdbitsComposesRdbit : Obligations.RdbitsComposesRdbit := by
  intro s n hs hwf hwritten hn hleft
  obtain ⟨-, -, hremaining⟩ := BitReader.advance_iterate_keeps hwf (show n ≤ s.br.remaining by omega)
  obtain ⟨d1, hexec1⟩ := exec_read_ok (commandBody_rdbits_of_le hn.le s) hs (readFixed_of_le (by omega) _)
  obtain ⟨d3, hexec3⟩ := exec_read_ok (commandBody_rdbits_of_le hn s) hs (readFixed_of_le hleft _)
  obtain ⟨t, ht⟩ : ∃ t, t = completed { s with
      result := unsignedResult (bitsValue s.streamBit 0 n), br := BitReader.advance^[n] s.br } d1 := ⟨_, rfl⟩
  rw [← ht] at hexec1
  have hbr : t.br = BitReader.advance^[n] s.br := by rw [ht]; rfl
  have hresult : t.result = unsignedResult (bitsValue s.streamBit 0 n) := by rw [ht]; rfl
  have hst : t.br.state = .ready := by rw [hbr, BitReader.advance_iterate_state, hs]
  obtain ⟨d2, hexec2⟩ := exec_read_ok (i := .rdbit) (f := unsignedResult) rfl hst
    (readFixed_of_le (show 1 ≤ t.br.remaining by rw [hbr]; omega) _)
  refine ⟨t, _, _, hexec1, hexec2, hexec3, ?_, ?_⟩
  · show BitReader.advance^[n + 1] s.br = BitReader.advance t.br
    rw [hbr, Function.iterate_succ_apply']
  · have hbit : t.streamBit 0 = s.streamBit n :=
      State.streamBit_advance hwf hwritten hbr (by rw [ht]; rfl) (show n + 0 < _ by omega)
    show (unsignedResult (bitsValue s.streamBit 0 (n + 1))).toNat =
      2 * t.result.toNat + (unsignedResult (bitsValue t.streamBit 0 1)).toNat
    rw [hresult, unsignedResult_bitsValue_toNat _ hn, unsignedResult_bitsValue_toNat _ hn.le,
      unsignedResult_bitsValue_toNat _ (by decide)]
    simp [bitsValue, hbit]

/-- The bits that are left show the slice alone: the same bytes there, and the same draws, are the same bits (R129). -/
theorem State.streamBit_congr {s s' : State} (hbr : s.br = s'.br) (hstream : s.stream = s'.stream)
    (hdraws : s.draws = s'.draws)
    (hslice : ∀ j, j < s.br.size.toNat →
      (s.buffer s.br.src).lookup (s.br.base.toNat + j) = (s'.buffer s.br.src).lookup (s.br.base.toNat + j))
    (t : Nat) (ht : t < s.br.remaining) : s.streamBit t = s'.streamBit t := by
  have hdrawn : s.drawByte t = s'.drawByte t := by rw [State.drawByte, State.drawByte, hstream, hdraws]
  rw [State.streamBit, State.streamBit, ← hbr, Memory.byteAt, Memory.byteAt,
    hslice _ (BitReader.byte_of_remaining ht), hdrawn]

/-- Two states with the same reader and the same bits left read alike: the same error, or the same RESULT and cursor. -/
theorem readCommand_congr {s s' : State} {dec : (Nat → Bool) → Nat → Except ErrorCode (Nat × Nat)}
    (hdec : SliceDecoder dec) (f : Nat → Word) (hbr : s.br = s'.br)
    (hbits : ∀ t, t < s.br.remaining → s.streamBit t = s'.streamBit t) :
    (∃ e, s.readCommand dec f = .error e ∧ s'.readCommand dec f = .error e) ∨
    (∃ r b, s.readCommand dec f = .ok { s with result := r, br := b } ∧
      s'.readCommand dec f = .ok { s' with result := r, br := b }) := by
  have hsame : dec s.streamBit s.br.remaining = dec s'.streamBit s'.br.remaining := by
    rw [← hbr]
    exact hdec.congr hbits
  unfold State.readCommand
  rw [← hsame, ← hbr]
  split
  · split
    · exact Or.inl ⟨_, rfl, rfl⟩
    · exact Or.inr ⟨_, _, rfl, rfl⟩
  · exact Or.inl ⟨_, rfl, rfl⟩

/-- Settles O28: the decoder is given the same bits in both states. -/
theorem readsStayInsideSlice : Obligations.ReadsStayInsideSlice := by
  intro i s s' t t' hi hbr hstream hdraws hslice hexec hexec'
  have hbody : (∃ e, commandBody i s = .error e ∧ commandBody i s' = .error e) ∨
      (∃ r b, commandBody i s = .ok { s with result := r, br := b } ∧
        commandBody i s' = .ok { s' with result := r, br := b }) := by
    rcases read_body hi with ⟨n, rfl, hn⟩ | ⟨dec, f, hdec, hread⟩
    · exact Or.inl ⟨_, commandBody_rdbits_of_lt hn s, commandBody_rdbits_of_lt hn s'⟩
    · rw [hread, hread]
      exact readCommand_congr hdec f hbr (State.streamBit_congr hbr hstream hdraws hslice)
  rw [exec_eq_complete] at hexec hexec'
  rcases hbody with ⟨e, h, h'⟩ | ⟨r, b, h, h'⟩ <;> rw [h] at hexec <;> rw [h'] at hexec' <;> cases hexec <;>
    cases hexec'
  · refine ⟨?_, rfl, rfl, fun h => Bool.noConfusion h⟩
    simp only [State.complete_error, State.spend_br, State.raise_br, hbr]
  · exact ⟨rfl, rfl, rfl, fun _ => rfl⟩

end Sys2Proof.Machine
end

section
/-! SCAN whole (R160): the scan's loop as a relation, the table that a successful SCAN leaves, and what a SCAN depends
on (R162, R168, R170). -/

namespace Sys2Proof.Machine

open Sys2Proof.Claims

/-- A start code as the pair of its index and its length, which the statements use. -/
def StartCode.pair (c : StartCode) : Nat × Nat := (c.index, c.codeLen)

/-- The bytes of a probe as the statements see them: `probeBytes rd i d` is the byte at i + d, as the probe of i reads
it. -/
abbrev probeBytes (rd : Nat → Nat → Byte) (i d : Nat) : Byte := rd (4 * i + d) (i + d)

section
variable {rd : Nat → Nat → Byte} {margin len i : Nat}

theorem probe_of_three (h : probeBytes rd i 0 = 0x00 ∧ probeBytes rd i 1 = 0x00 ∧ probeBytes rd i 2 = 0x01) :
    probe rd i = some 3 :=
  if_pos h

/-- The 4-byte pattern is no 3-byte pattern: they differ in the third byte (R161). -/
theorem probe_of_four (h : probeBytes rd i 0 = 0x00 ∧ probeBytes rd i 1 = 0x00 ∧ probeBytes rd i 2 = 0x00 ∧
    probeBytes rd i 3 = 0x01) : probe rd i = some 4 := by
  obtain ⟨h0, h1, hzero, h3⟩ := h
  refine (if_neg fun ⟨_, _, hone⟩ => ?_).trans (if_pos ⟨h0, h1, hzero, h3⟩)
  exact absurd (hzero.symm.trans hone) (by decide)

theorem probe_of_neither (h3 : ¬ (probeBytes rd i 0 = 0x00 ∧ probeBytes rd i 1 = 0x00 ∧ probeBytes rd i 2 = 0x01))
    (h4 : ¬ (probeBytes rd i 0 = 0x00 ∧ probeBytes rd i 1 = 0x00 ∧ probeBytes rd i 2 = 0x00 ∧
      probeBytes rd i 3 = 0x01)) : probe rd i = none :=
  (if_neg h3).trans (if_neg h4)

/-- The model's loop is a run of R160's, if it may probe up to the end of the range. -/
theorem scanRun_findStartCodes {fuel : Nat} (hfuel : len < i + fuel) :
    ScanRun (probeBytes rd) margin len i ((findStartCodes rd margin len fuel i).map StartCode.pair) := by
  induction fuel generalizing i with
  | zero => exact .stop i (by omega)
  | succ fuel ih =>
    rw [findStartCodes_succ]
    by_cases hi : i + margin ≤ len
    · rw [if_pos hi]
      by_cases h3 : probeBytes rd i 0 = 0x00 ∧ probeBytes rd i 1 = 0x00 ∧ probeBytes rd i 2 = 0x01
      · rw [probe_of_three h3]
        exact .three i _ hi h3 (ih (by omega))
      · by_cases h4 : probeBytes rd i 0 = 0x00 ∧ probeBytes rd i 1 = 0x00 ∧ probeBytes rd i 2 = 0x00 ∧
          probeBytes rd i 3 = 0x01
        · rw [probe_of_four h4]
          exact .four i _ hi h4 (ih (by omega))
        · rw [probe_of_neither h3 h4]
          exact .miss i _ hi h3 h4 (ih (by omega))
    · rw [if_neg hi]
      exact .stop i (by omega)

/-- R160's loop has no other run. -/
theorem scanRun_unique {S : List (Nat × Nat)} (h : ScanRun (probeBytes rd) margin len i S) {fuel : Nat}
    (hfuel : len < i + fuel) : S = (findStartCodes rd margin len fuel i).map StartCode.pair := by
  induction h generalizing fuel with
  | stop i h => rw [findStartCodes_stop rd h]; rfl
  | three i S h p r ih =>
    obtain ⟨fuel, rfl⟩ := Nat.exists_eq_add_one_of_ne_zero (show fuel ≠ 0 by omega)
    rw [findStartCodes_succ, if_pos h, probe_of_three p, ih (fuel := fuel) (by omega)]
    rfl
  | four i S h p r ih =>
    obtain ⟨fuel, rfl⟩ := Nat.exists_eq_add_one_of_ne_zero (show fuel ≠ 0 by omega)
    rw [findStartCodes_succ, if_pos h, probe_of_four p, ih (fuel := fuel) (by omega)]
    rfl
  | miss i S h p3 p4 r ih =>
    obtain ⟨fuel, rfl⟩ := Nat.exists_eq_add_one_of_ne_zero (show fuel ≠ 0 by omega)
    rw [findStartCodes_succ, if_pos h, probe_of_neither p3 p4, ih (fuel := fuel) (by omega)]

end

/-- The start codes that R160's loop finds from the start of the range are the model's. -/
theorem scanRun_iff_startCodes {s : State} {S : List (Nat × Nat)} :
    ScanRun (probeBytes s.rangeByte) s.config.scanMargin s.argLen 0 S ↔ S = s.startCodes.map StartCode.pair := by
  constructor
  · intro h
    exact scanRun_unique h (by omega)
  · rintro rfl
    exact scanRun_findStartCodes (by omega)

/-- The table after a successful SCAN, by index: the unit of a start code (R162), or what was there (R47). -/
theorem State.scanned_utab_getElem? (s : State) (j : Nat) :
    s.scanned.utab[j]? = if j < s.startCodes.length then
        s.startCodes[j]?.map (fun c => unitEntry s.rangeByte (4 * s.argLen + j) (c.index + c.codeLen)
          (unitEnd s.argLen (s.startCodes.drop (j + 1))))
      else s.utab[j]? := by
  have hunits : s.scanUnits.length = s.startCodes.length := unitsOf_length _ _ _ _
  show (s.scanUnits ++ s.utab.drop s.scanUnits.length)[j]? = _
  rw [scanned_table_getElem?, hunits, State.scanUnits, unitsOf_getElem?, Nat.zero_add]

/-- LAST_SC as the statements have it. -/
theorem lastStart_eq_pair (codes : List StartCode) : lastStart codes =
    if codes.map StartCode.pair = [] then 0xFFFFFFFF
    else BitVec.ofNat 32 ((codes.map StartCode.pair).getLast?.getD (0, 0)).1 := by
  cases h : codes.getLast? with
  | none => simp [List.getLast?_eq_none_iff.mp h, noneWord]
  | some c =>
    have hne : codes ≠ [] := List.ne_nil_of_mem (List.mem_of_getLast? h)
    simp [lastStart_of_getLast? h, hne, h, StartCode.pair]

/-- Where the unit of a start code begins. -/
theorem unitBegin_map_pair {codes : List StartCode} {j : Nat} {c : StartCode} (h : codes[j]? = some c) :
    unitBegin (codes.map StartCode.pair) j = c.index + c.codeLen := by
  simp [unitBegin, h, StartCode.pair]

/-- Where the unit of a start code ends. -/
theorem unitStop_map_pair (codes : List StartCode) (len j : Nat) :
    unitStop (codes.map StartCode.pair) len j = unitEnd len (codes.drop (j + 1)) := by
  rw [unitEnd_drop, unitStop, List.getElem?_map, Option.map_map]
  rfl

/-- Settles O29: the loop's start codes are the model's, and its two errors and its writes are SCAN's body. -/
theorem scanSlicesRange : Obligations.ScanSlicesRange := by
  refine ⟨by decide, fun s => ⟨fun hover => ?_, fun hfits => ⟨⟨_, scanRun_iff_startCodes.mpr rfl⟩, fun S hS => ?_⟩⟩⟩
  · exact exec_of_body_error (i := .scan) (State.scanRange_eq_error_iff.mpr (Or.inl ⟨hover, rfl⟩)) rfl
  · obtain rfl := scanRun_iff_startCodes.mp hS
    rw [List.length_map]
    refine ⟨fun hfull => ?_, fun hroom => ?_⟩
    · exact exec_of_body_error (i := .scan) (State.scanRange_eq_error_iff.mpr (Or.inr ⟨hfits, hfull, rfl⟩)) rfl
    · obtain ⟨d, hexec⟩ := exec_of_body_ok (i := .scan) (State.scanRange_eq_ok_iff.mpr ⟨hfits, hroom, rfl⟩)
      refine ⟨s.scanned.utab, d, ?_, fun j hj => ?_, fun j hj => ?_⟩
      · rw [hexec, ← lastStart_eq_pair]
        have hnosc : decide (s.startCodes.map StartCode.pair = []) = s.startCodes.isEmpty := by
          cases s.startCodes <;> rfl
        rw [hnosc]
        rfl
      · have hc := List.getElem?_eq_getElem hj
        rw [State.scanned_utab_getElem?, if_pos hj, unitStop_map_pair, unitBegin_map_pair hc, hc]
        rfl
      · rw [State.scanned_utab_getElem?, if_neg (Nat.not_lt.mpr hj)]

/-- A unit inside a range that a word counts has its bounds in its entry: DATA_OFF, and its end at DATA_OFF + LEN
(R45). -/
theorem unitEntry_bounds (rd : Nat → Nat → Byte) (k : Nat) {start stop : Nat} (h : start ≤ stop)
    (hstop : stop < 2 ^ 32) :
    (unitEntry rd k start stop).dataOff.toNat = start ∧
      (unitEntry rd k start stop).dataOff.toNat + (unitEntry rd k start stop).len.toNat = stop := by
  have hstart : (unitEntry rd k start stop).dataOff.toNat = start := Nat.mod_eq_of_lt (by omega)
  have hlen : (unitEntry rd k start stop).len.toNat = stop - start := Nat.mod_eq_of_lt (by omega)
  omega

/-- The unit of a start code begins inside the range, at or before its end (R161, R162). -/
theorem State.startCode_unit_le {s : State} (hmargin : 4 ≤ s.config.scanMargin) {j : Nat} {c : StartCode}
    (hc : s.startCodes[j]? = some c) :
    c.index + c.codeLen ≤ unitEnd s.argLen (s.startCodes.drop (j + 1)) ∧
      unitEnd s.argLen (s.startCodes.drop (j + 1)) ≤ s.argLen := by
  obtain ⟨-, hend, hlen, -⟩ := findStartCodes_mem (List.mem_of_getElem? hc)
  refine ⟨?_, unitEnd_le fun d hd => State.startCodes_index_le (List.mem_of_mem_drop hd)⟩
  rw [unitEnd_drop]
  cases hd : s.startCodes[j + 1]? with
  | none =>
    show c.index + c.codeLen ≤ s.argLen
    omega
  | some d =>
    obtain ⟨hj, rfl⟩ := List.getElem?_eq_some_iff.mp hc
    obtain ⟨hj', rfl⟩ := List.getElem?_eq_some_iff.mp hd
    exact List.pairwise_iff_getElem.mp (findStartCodes_pairwise _ _ _ _ _) j (j + 1) hj hj' (Nat.lt_succ_self j)

/-- The entry of a start code after a successful SCAN: where its unit begins, and where it ends (R162). -/
theorem State.scanned_unit {s : State} (hmargin : 4 ≤ s.config.scanMargin) {j : Nat} {c : StartCode}
    (hc : s.startCodes[j]? = some c) : ∃ a, s.scanned.utab[j]? = some a ∧ a.dataOff.toNat = c.index + c.codeLen ∧
      a.dataOff.toNat + a.len.toNat = (s.startCodes[j + 1]?.map StartCode.index).getD s.argLen := by
  obtain ⟨hbegin, hend⟩ := State.startCode_unit_le hmargin hc
  have hlen : s.argLen < 2 ^ 32 := s.arg1.isLt
  obtain ⟨hj, -⟩ := List.getElem?_eq_some_iff.mp hc
  rw [State.scanned_utab_getElem?, if_pos hj, hc, ← unitEnd_drop]
  exact ⟨_, rfl, unitEntry_bounds _ _ hbegin (by omega)⟩

/-- Settles O30: a unit ends at the next start code, which is 3 or 4 bytes long, or at the end of the range. -/
theorem scanUnitsTileRange : Obligations.ScanUnitsTileRange := by
  intro s t hvalid hexec herr
  obtain ⟨-, -, ⟨-, hdepth⟩, hmargin, -⟩ := hvalid
  obtain ⟨hroom, d, rfl⟩ := scan_completed_of_exec hexec herr
  have hcount : (completed s.scanned d).unitCount.toNat = s.startCodes.length :=
    State.scanned_unitCount_toNat hdepth hroom
  rw [hcount]
  refine ⟨fun j hj => ?_, fun j hj => ?_⟩
  · have hcode := List.getElem?_eq_getElem (show j < s.startCodes.length by omega)
    have hnext := List.getElem?_eq_getElem hj
    obtain ⟨a, ha, -, haend⟩ := State.scanned_unit hmargin hcode
    obtain ⟨b, hb, hbbegin, -⟩ := State.scanned_unit hmargin hnext
    obtain ⟨-, -, hlen, -⟩ := findStartCodes_mem (List.getElem_mem hj)
    rw [hnext, Option.map_some, Option.getD_some] at haend
    exact ⟨a, b, ha, hb, by omega, by omega⟩
  · have hcode := List.getElem?_eq_getElem (show j < s.startCodes.length by omega)
    obtain ⟨a, ha, -, haend⟩ := State.scanned_unit hmargin hcode
    rw [List.getElem?_eq_none (by omega), Option.map_none, Option.getD_none] at haend
    exact ⟨a, ha, haend⟩

/-- Written bytes read the same whichever draw a read is, and wherever the range lies (R66). -/
theorem rangeByte_eq_of_written {s s' : State} (hwritten : rangeWritten s)
    (h : ∀ j, j < s.argLen → s.ibuf.lookup (s.argOff + j) = s'.ibuf.lookup (s'.argOff + j)) (k k' j : Nat)
    (hj : j < s.argLen) : s.rangeByte k j = s'.rangeByte k' j := by
  obtain ⟨b, hb⟩ := Option.isSome_iff_exists.mp (hwritten j hj)
  rw [State.rangeByte, State.rangeByte, Memory.byteAt_of_lookup hb, Memory.byteAt_of_lookup ((h j hj).symm.trans hb)]

/-- Ranges that read alike have the same start codes and the same units (R168). -/
theorem startCodes_congr {s s' : State} (hmargin : 4 ≤ s.config.scanMargin) (hconfig : s.config = s'.config)
    (hlen : s.argLen = s'.argLen) (h : ∀ k j, j < s.argLen → s.rangeByte k j = s'.rangeByte k j) :
    s.startCodes = s'.startCodes ∧ s.scanUnits = s'.scanUnits := by
  have hcodes : s.startCodes = s'.startCodes := by
    rw [State.startCodes, State.startCodes, ← hconfig, ← hlen]
    exact findStartCodes_congr hmargin h _ _
  refine ⟨hcodes, ?_⟩
  rw [State.scanUnits, State.scanUnits, ← hcodes, ← hlen]
  exact unitsOf_congr h _ _ fun c => State.startCodes_index_le

/-- A command leaves its own range: the same parameters, operands and IBUF. -/
theorem exec_keeps_range {i : Instr} {s t : State} (h : exec i s = .next t) :
    t.config = s.config ∧ t.argOff = s.argOff ∧ t.argLen = s.argLen ∧ t.ibuf = s.ibuf := by
  obtain ⟨hconfig, harg0, harg1, hibuf, -⟩ := (commandFootprints i s t h).1
  exact ⟨hconfig, congrArg BitVec.toNat harg0, congrArg BitVec.toNat harg1, hibuf⟩

/-- Settles O32: the second SCAN finds the same start codes, over a table that already holds their units. -/
theorem scanIsIdempotent : Obligations.ScanIsIdempotent := by
  intro s t t' hvalid hwritten hexec hexec'
  obtain ⟨-, -, -, hmargin, -⟩ := hvalid
  obtain ⟨hconfig, hoff, hlen, hibuf⟩ := exec_keeps_range hexec
  have hreads (k j : Nat) (hj : j < s.argLen) : s.rangeByte k j = t.rangeByte k j :=
    rangeByte_eq_of_written hwritten (fun j _ => by rw [hibuf, hoff]) k k j hj
  obtain ⟨hcodes, hunits⟩ := startCodes_congr hmargin hconfig.symm hlen.symm hreads
  rcases exec_cases hexec with ⟨u, d, hbody, ht⟩ | ⟨e, k, hbody, ht⟩
  · obtain ⟨hfits, hroom, rfl⟩ := State.scanRange_eq_ok_iff.mp hbody
    have hbody' : commandBody .scan t = .ok t.scanned :=
      State.scanRange_eq_ok_iff.mpr ⟨by rwa [hoff, hlen, hconfig], by rwa [← hcodes, hconfig], rfl⟩
    have hscanned : t.scanned = t := by
      rw [State.scanned, ← hcodes, ← hunits, hlen, hconfig, ht]
      simp only [completed, State.scanned, List.drop_left]
      rfl
    obtain ⟨d', hexec''⟩ := exec_of_body_ok hbody'
    rw [hexec'', hscanned] at hexec'
    cases hexec'
    rw [ht]
    rfl
  · have hbody' : commandBody .scan t = .error e := by
      refine State.scanRange_eq_error_iff.mpr ?_
      rw [hoff, hlen, hconfig, ← hcodes]
      exact State.scanRange_eq_error_iff.mp hbody
    rw [exec_eq_complete, hbody'] at hexec'
    cases hexec'
    rcases State.scanRange_eq_error_iff.mp hbody with ⟨-, rfl⟩ | ⟨-, -, rfl⟩ <;> rw [ht] <;> rfl

/-- The first entries after a successful SCAN, as many as UNIT_COUNT says, are its units (R162). -/
theorem State.scanned_utab_take {s : State} (hdepth : s.config.utabDepth ≤ 2 ^ 24)
    (hroom : s.startCodes.length ≤ s.config.utabDepth) :
    s.scanned.utab.take s.scanned.unitCount.toNat = s.scanUnits := by
  rw [State.scanned_unitCount_toNat hdepth hroom]
  exact List.take_left' (unitsOf_length _ _ _ _)

/-- Settles O33: both ranges have the same start codes, so both table checks answer alike, and the writes are made of
them. -/
theorem scanIsRelativeToBase : Obligations.ScanIsRelativeToBase := by
  intro s s' t t' hvalid hwritten hlen hconfig hfits' hfits hbytes hexec hexec'
  obtain ⟨-, -, ⟨-, hdepth⟩, hmargin, -⟩ := hvalid
  have hreads (k j : Nat) (hj : j < s.argLen) : s.rangeByte k j = s'.rangeByte k j :=
    rangeByte_eq_of_written hwritten hbytes k k j hj
  obtain ⟨hcodes, hunits⟩ := startCodes_congr hmargin hconfig hlen hreads
  rcases Nat.lt_or_ge s.config.utabDepth s.startCodes.length with hfull | hroom
  · have hbody : commandBody .scan s = .error .unitTableFull :=
      State.scanRange_eq_error_iff.mpr (Or.inr ⟨hfits, hfull, rfl⟩)
    have hbody' : commandBody .scan s' = .error .unitTableFull :=
      State.scanRange_eq_error_iff.mpr (Or.inr ⟨hfits', by rwa [← hconfig, ← hcodes], rfl⟩)
    rw [exec_eq_complete, hbody] at hexec
    rw [exec_eq_complete, hbody'] at hexec'
    cases hexec
    cases hexec'
    exact ⟨rfl, rfl, fun h => Bool.noConfusion h⟩
  · have hroom' : s'.startCodes.length ≤ s'.config.utabDepth := by rwa [← hconfig, ← hcodes]
    obtain ⟨d, hnext⟩ := exec_of_body_ok (i := .scan) (State.scanRange_eq_ok_iff.mpr ⟨hfits, hroom, rfl⟩)
    obtain ⟨d', hnext'⟩ := exec_of_body_ok (i := .scan) (State.scanRange_eq_ok_iff.mpr ⟨hfits', hroom', rfl⟩)
    rw [hnext] at hexec
    rw [hnext'] at hexec'
    cases hexec
    cases hexec'
    refine ⟨rfl, rfl, fun _ => ?_⟩
    have hcount : s.scanned.unitCount = s'.scanned.unitCount := by simp only [State.scanned, hcodes]
    have htake : s.scanned.utab.take s.scanned.unitCount.toNat = s'.scanned.utab.take s.scanned.unitCount.toNat := by
      rw [State.scanned_utab_take hdepth hroom, hcount, State.scanned_utab_take (hconfig ▸ hdepth) hroom', hunits]
    refine ⟨hcount, ?_, ?_, ?_, htake⟩ <;> simp only [completed, State.scanned, Status.scanned, hcodes, hlen, hconfig]

/-- In a range that begins with z zero bytes and a 0x01, R160's loop begun inside the zeros finds first the 4-byte start
code that ends them (R170). -/
theorem scanRun_zeroRun {B : Nat → Nat → Byte} {len z i : Nat} {S : List (Nat × Nat)} (hz : 3 ≤ z) (hlen : z + 1 ≤ len)
    (hzeros : ∀ i d, i + d < z → B i d = 0x00) (hone : ∀ i d, i + d = z → B i d = 0x01) (h : ScanRun B 4 len i S)
    (hi : i ≤ z - 3) : S.head? = some (z - 3, 4) := by
  induction h with
  | stop i h => omega
  | three i S h p r =>
    obtain ⟨-, -, h2⟩ := p
    exact absurd ((hzeros i 2 (by omega)).symm.trans h2) (by decide)
  | four i S h p r =>
    by_cases hend : i + 3 < z
    · obtain ⟨-, -, -, h3⟩ := p
      exact absurd ((hzeros i 3 hend).symm.trans h3) (by decide)
    · rw [show i = z - 3 by omega]
      rfl
  | miss i S h p3 p4 r ih =>
    refine ih ?_
    by_contra hnext
    exact p4 ⟨hzeros i 0 (by omega), hzeros i 1 (by omega), hzeros i 2 (by omega), hone i 3 (by omega)⟩

/-- Settles O34: the loop begins inside the zeros, and the start code that ends them opens the first unit. -/
theorem zeroRunBeforeStartCode : Obligations.ZeroRunBeforeStartCode := by
  intro s t z hvalid hmargin hz hlen hzeros hone hexec herr
  obtain ⟨-, -, ⟨-, hdepth⟩, hmargin4, -⟩ := hvalid
  have hhead (S : List (Nat × Nat)) (hS : ScanRun (probeBytes s.rangeByte) s.config.scanMargin s.argLen 0 S) :
      S.head? = some (z - 3, 4) := by
    rw [hmargin] at hS
    refine scanRun_zeroRun hz hlen (fun i d hd => ?_) (fun i d hd => ?_) hS (Nat.zero_le _)
    · exact Memory.byteAt_of_lookup (hzeros _ hd) _
    · exact Memory.byteAt_of_lookup (hd ▸ hone) _
  obtain ⟨hroom, d, rfl⟩ := scan_completed_of_exec hexec herr
  have hfirst : s.startCodes[0]? = some { index := z - 3, codeLen := 4 } := by
    have hpair := hhead _ (scanRun_iff_startCodes.mpr rfl)
    rw [List.head?_map, Option.map_eq_some_iff] at hpair
    obtain ⟨⟨index, codeLen⟩, hc, hpair⟩ := hpair
    obtain ⟨rfl, rfl⟩ := Prod.mk.inj hpair
    rw [← List.head?_eq_getElem?, hc]
  have hcount : (completed s.scanned d).unitCount.toNat = s.startCodes.length :=
    State.scanned_unitCount_toNat hdepth hroom
  obtain ⟨hpos, -⟩ := List.getElem?_eq_some_iff.mp hfirst
  obtain ⟨a, ha, hbegin, -⟩ := State.scanned_unit hmargin4 hfirst
  refine ⟨hhead, ⟨a, ha, hbegin.trans (show z - 3 + 4 = z + 1 by omega), fun h0 => ?_⟩, fun h1 => ?_⟩
  · rw [h0] at hcount
    exact absurd hcount hpos.ne
  · rw [h1] at hcount
    obtain ⟨c, hcodes⟩ := List.length_eq_one_iff.mp hcount.symm
    have hlast : s.startCodes.getLast? = some { index := z - 3, codeLen := 4 } := by
      rw [hcodes] at hfirst ⊢
      exact hfirst
    have hz32 : s.argLen < 2 ^ 32 := s.arg1.isLt
    show (lastStart s.startCodes).toNat = z - 3
    rw [lastStart_of_getLast? hlast, BitVec.toNat_ofNat]
    exact Nat.mod_eq_of_lt (by omega)

end Sys2Proof.Machine
end

section
/-! STRIP whole (R190 to R193): the indices that are kept, where their bytes go, and that STRIP is a function of its
range. -/

namespace Sys2Proof.Machine

open Sys2Proof.Claims

/-- The index of a byte of the range is left out exactly when R190 calls it an emulation byte. -/
theorem emulationByteAt_iff {s : State} {i : Nat} (hi : i < s.argLen) :
    emulationByteAt s i ↔ isEmulationByte s.rangeByte s.argLen i = true := by
  rw [isEmulationByte_iff, emulationByteAt, show i = s.argLen - 1 ↔ i + 1 = s.argLen by omega]

/-- The indices that STRIP leaves out, in order (R191). -/
def State.removedIndices (s : State) : List Nat :=
  (List.range s.argLen).filter (isEmulationByte s.rangeByte s.argLen)

/-- The indices that STRIP keeps, in order (R191). -/
def State.keptIndices (s : State) : List Nat :=
  (List.range s.argLen).filter (fun i => !isEmulationByte s.rangeByte s.argLen i)

theorem State.mem_removedIndices {s : State} {i : Nat} :
    i ∈ s.removedIndices ↔ i < s.argLen ∧ emulationByteAt s i := by
  rw [State.removedIndices, List.mem_filter, List.mem_range]
  exact and_congr_right fun hi => (emulationByteAt_iff hi).symm

theorem State.mem_keptIndices {s : State} {i : Nat} : i ∈ s.keptIndices ↔ i < s.argLen ∧ ¬ emulationByteAt s i := by
  rw [State.keptIndices, List.mem_filter, List.mem_range, Bool.not_eq_true']
  exact and_congr_right fun hi => by rw [emulationByteAt_iff hi, Bool.not_eq_true]

/-- Each index of the range is kept or left out. -/
theorem State.keptIndices_length_add (s : State) : s.keptIndices.length + s.removedIndices.length = s.argLen := by
  have h := List.length_eq_length_filter_add (l := List.range s.argLen) (isEmulationByte s.rangeByte s.argLen)
  rw [List.length_range] at h
  exact (Nat.add_comm _ _).trans h.symm

theorem State.strippedBytes_eq (s : State) :
    strippedBytes s.rangeByte s.argLen = s.keptIndices.map (fun i => s.rangeByte (5 * i + 4) i) :=
  strippedBytes_eq_map _ _

/-- OUT_LEN counts the kept bytes (R190). -/
theorem State.stripped_outLen (s : State) : s.stripped.outLen = BitVec.ofNat 32 s.keptIndices.length := by
  rw [State.stripped, State.strippedBytes_eq, List.length_map]

theorem State.stripped_outLen_toNat (s : State) : s.stripped.outLen.toNat = s.keptIndices.length := by
  have hlen : s.argLen < 2 ^ 32 := s.arg1.isLt
  have hall := s.keptIndices_length_add
  rw [State.stripped_outLen]
  exact Nat.mod_eq_of_lt (by omega)

/-- OBUF after a STRIP: the bytes of the kept indices from offset 0 on, and above them what was there (R192). -/
theorem State.stripped_obuf_lookup (s : State) (m : Nat) : s.stripped.obuf.lookup m =
    if m < s.keptIndices.length then s.keptIndices[m]?.map (fun i => s.rangeByte (5 * i + 4) i)
    else s.obuf.lookup m := by
  show (s.obuf.writeBytes 0 (strippedBytes s.rangeByte s.argLen)).lookup m = _
  rw [Memory.lookup_writeBytes, State.strippedBytes_eq, List.length_map, List.getElem?_map]
  simp only [Nat.zero_le, true_and, Nat.zero_add, Nat.sub_zero]

/-- Settles O35: the indices kept are those of the model, in the order of the range. -/
theorem stripCopiesKeptBytes : Obligations.StripCopiesKeptBytes := by
  refine ⟨by decide, fun s => ⟨fun hover => ?_, fun hin hout => ?_⟩⟩
  · exact exec_of_body_error (i := .strip) (State.stripRange_eq_error_iff.mpr ⟨hover, rfl⟩) rfl
  · obtain ⟨d, hexec⟩ := exec_of_body_ok (i := .strip) (State.stripRange_eq_ok_iff.mpr ⟨hin, hout, rfl⟩)
    refine ⟨s.keptIndices, s.stripped.obuf, d, ?_, List.pairwise_lt_range.filter _, fun _ => State.mem_keptIndices,
      fun m i hi => ?_, fun a ha => ?_⟩
    · rw [hexec, ← State.stripped_outLen]
      rfl
    · obtain ⟨hm, -⟩ := List.getElem?_eq_some_iff.mp hi
      rw [State.stripped_obuf_lookup, if_pos hm, hi, Option.map_some]
    · rw [State.stripped_obuf_lookup, if_neg (Nat.not_lt.mpr ha)]

/-- A STRIP that leaves ERR = 0 completed with its writes, over ranges that fit. -/
theorem strip_completed_of_exec {s t : State} (hexec : exec .strip s = .next t) (herr : t.status.err = false) :
    ∃ d, t = completed s.stripped d := by
  obtain ⟨u, d, hbody, rfl⟩ := body_ok_of_exec hexec herr
  obtain ⟨-, -, rfl⟩ := State.stripRange_eq_ok_iff.mp hbody
  exact ⟨d, rfl⟩

/-- An emulation byte is 0x03, so in a written range the next index, which wants a 0x00 before it, is none (R193). -/
theorem not_emulationByteAt_succ {s : State} (hwritten : rangeWritten s) {i : Nat} (hi : i < s.argLen)
    (h : emulationByteAt s i) : ¬ emulationByteAt s (i + 1) := by
  rintro ⟨-, -, -, hzero, -⟩
  obtain ⟨hthree, -⟩ := h
  rw [rangeByte_eq_of_written hwritten (fun _ _ => rfl) _ (5 * (i + 1) + 2) i hi] at hthree
  exact absurd (hzero.symm.trans hthree) (by decide)

/-- Settles O36: every index is kept or left out, and an emulation byte is not 0x00. -/
theorem stripLengthLaws : Obligations.StripLengthLaws := by
  intro s t hexec herr
  obtain ⟨d, rfl⟩ := strip_completed_of_exec hexec herr
  refine ⟨⟨s.removedIndices, List.pairwise_lt_range.filter _, fun _ => State.mem_removedIndices, ?_⟩,
    fun hwritten i hi => not_emulationByteAt_succ hwritten (Nat.lt_of_succ_lt hi)⟩
  show s.stripped.outLen.toNat + s.removedIndices.length = s.argLen
  rw [State.stripped_outLen_toNat, State.keptIndices_length_add]

/-- Ranges that read alike, whichever draw a read is, are stripped alike (R193). -/
theorem strippedBytes_congr {rd rd' : Nat → Nat → Byte} {len : Nat} (h : ∀ k j, j < len → rd k j = rd' k j) :
    strippedBytes rd len = strippedBytes rd' len := by
  refine List.filterMap_congr fun i hi => ?_
  have hi : i < len := List.mem_range.mp hi
  have hemulation : isEmulationByte rd len i = isEmulationByte rd' len i := by
    rw [Bool.eq_iff_iff, isEmulationByte_iff, isEmulationByte_iff, h _ i hi, h _ (i - 2) (by omega),
      h _ (i - 1) (by omega)]
    by_cases hlast : i + 1 = len
    · simp [hlast]
    · rw [h _ (i + 1) (by omega)]
  rw [keptByte, keptByte, hemulation, h _ i hi]

/-- Storing the same bytes at the same place again changes nothing. -/
theorem Memory.writeBytes_again {m : Memory} (hm : m.wf) (a : Nat) (vs : List Byte) :
    (m.writeBytes a vs).writeBytes a vs = m.writeBytes a vs := by
  have hwf := Memory.writeBytes_wf hm a vs
  refine Memory.ext_of_wf (Memory.writeBytes_wf hwf a vs) hwf fun b => ?_
  simp only [Memory.lookup_writeBytes]
  split <;> rfl

/-- Settles O37: the second STRIP writes the same bytes over themselves, or raises the same error. -/
theorem stripTwiceIsOnce : Obligations.StripTwiceIsOnce := by
  intro s t t' hwritten hwf hexec hexec'
  obtain ⟨hconfig, hoff, hlen, hibuf⟩ := exec_keeps_range hexec
  have hbytes : strippedBytes s.rangeByte s.argLen = strippedBytes t.rangeByte s.argLen :=
    strippedBytes_congr fun k j => rangeByte_eq_of_written hwritten (fun j _ => by rw [hibuf, hoff]) k k j
  rcases exec_cases hexec with ⟨u, d, hbody, ht⟩ | ⟨e, k, hbody, ht⟩
  · obtain ⟨hin, hout, rfl⟩ := State.stripRange_eq_ok_iff.mp hbody
    have hbody' : commandBody .strip t = .ok t.stripped :=
      State.stripRange_eq_ok_iff.mpr ⟨by rwa [hoff, hlen, hconfig], by rwa [hlen, hconfig], rfl⟩
    have hstripped : t.stripped = t := by
      rw [State.stripped, hlen, ← hbytes, ht]
      simp only [completed, State.stripped, Memory.writeBytes_again hwf]
    obtain ⟨d', hexec''⟩ := exec_of_body_ok hbody'
    rw [hexec'', hstripped] at hexec'
    cases hexec'
    rw [ht]
    rfl
  · obtain ⟨hover, rfl⟩ := State.stripRange_eq_error_iff.mp hbody
    have hbody' : commandBody .strip t = .error .operandRange :=
      State.stripRange_eq_error_iff.mpr ⟨by rwa [hoff, hlen, hconfig], rfl⟩
    rw [exec_eq_complete, hbody'] at hexec'
    cases hexec'
    rw [ht]
    rfl

end Sys2Proof.Machine
end

section
/-! Host accesses (R60 to R64): which are accepted, and what the step of one is. -/

namespace Sys2Proof.Machine

open Sys2Proof.Claims

/-- The widths and alignments of R62. -/
theorem accepted_iff {r : Region} {off bytes : Nat} : accepted r off bytes = true ↔
    (bytes = 4 ∧ off % 4 = 0) ∨ (bytes = 1 ∧ (r = .ibuf ∨ r = .obuf)) := by
  cases r <;> simp [accepted, or_comm]

/-- A place that resolves is named by its region's offset, or by its bus address inside the region (R60). -/
theorem resolve_eq_some_iff {c : Config} (hc : c.Valid) {t : BusTarget} {r : Region} {off : Nat} :
    resolve c t = some (r, off) ↔ t = .offset r off ∨ (t = .address (c.base r + off) ∧ off < c.size r) := by
  cases t with
  | offset r' off' => simp [resolve]
  | address a =>
    constructor
    · intro h
      obtain ⟨r', hbase, hend⟩ := resolve_address_some (Option.isSome_of_eq_some h)
      have hplace := resolve_address hc (r := r') (off := a - c.base r') (by omega)
      rw [Nat.add_sub_cancel' hbase] at hplace
      cases h.symm.trans hplace
      exact Or.inr ⟨by rw [Nat.add_sub_cancel' hbase], by omega⟩
    · rintro (h | ⟨h, hoff⟩)
      · cases h
      · cases h
        exact resolve_address hc hoff

/-- The checks of R62 and R64 pass exactly the accepted accesses. -/
theorem checkAccess_eq_ok_iff {c : Config} (hc : c.Valid) {t : BusTarget} {bytes : Nat} {r : Region} {off : Nat} :
    checkAccess c t bytes = .ok (r, off) ↔ Access c t bytes r off := by
  rw [Access, ← resolve_eq_some_iff hc, ← accepted_iff]
  constructor
  · intro h
    obtain ⟨hplace, hwidth, hend⟩ := checkAccess_ok h
    exact ⟨hplace, hend, hwidth⟩
  · rintro ⟨hplace, hend, hwidth⟩
    exact checkAccess_of_resolve hplace hwidth hend

/-- An access by offset needs only its width, its alignment and its end (R62, R64). -/
theorem checkAccess_offset {c : Config} {r : Region} {off bytes : Nat} (hwidth : accepted r off bytes = true)
    (hend : off + bytes ≤ c.size r) : checkAccess c (.offset r off) bytes = .ok (r, off) :=
  checkAccess_of_resolve rfl hwidth hend

section
variable {s : State} {t : BusTarget} {bytes : Nat} {v : Word} {rest : List Input} {f : BusFault}

theorem step_eq_hostRead (h : s.inputs = .read t bytes :: rest) :
    step s = hostRead t bytes { s with inputs := rest } := by
  simp only [step, takeTurn, h]

theorem step_eq_hostWrite (h : s.inputs = .write t bytes v :: rest) :
    step s = hostWrite t bytes v { s with inputs := rest } := by
  simp only [step, takeTurn, h]

theorem step_read_of_refused (h : s.inputs = .read t bytes :: rest) (hcheck : checkAccess s.config t bytes = .error f) :
    step s = .fault (.busFault f) := by
  simp only [step_eq_hostRead h, hostRead, hcheck]

theorem step_write_of_idle {r : Region} {off : Nat} (h : s.inputs = .write t bytes v :: rest)
    (hcheck : checkAccess s.config t bytes = .ok (r, off)) (hidle : s.status.busy = false) :
    step s = .next (State.busStore { s with inputs := rest } r off bytes v) := by
  rw [step_write h hcheck, hidle]
  rfl

theorem step_write_of_refused (h : s.inputs = .write t bytes v :: rest)
    (hcheck : checkAccess s.config t bytes = .error f) : step s = .fault (.busFault f) := by
  simp only [step_eq_hostWrite h, hostWrite, hcheck]

end

/-- Settles O38: the step is a bus fault exactly when the checks fail, whether busy or not. -/
theorem busFaultsExactly : Obligations.BusFaultsExactly := by
  intro s t bytes v rest hc
  cases hcheck : checkAccess s.config t bytes with
  | error f =>
    have hnone : ¬ ∃ r off, Access s.config t bytes r off := by
      rintro ⟨r, off, h⟩
      rw [(checkAccess_eq_ok_iff hc).mpr h] at hcheck
      cases hcheck
    exact ⟨fun h => iff_of_true ⟨f, step_read_of_refused h hcheck⟩ hnone,
      fun h => iff_of_true ⟨f, step_write_of_refused h hcheck⟩ hnone⟩
  | ok p =>
    have hsome : ∃ r off, Access s.config t bytes r off := ⟨p.1, p.2, (checkAccess_eq_ok_iff hc).mp hcheck⟩
    refine ⟨fun h => iff_of_false ?_ (not_not.mpr hsome), fun h => iff_of_false ?_ (not_not.mpr hsome)⟩
    · rintro ⟨f, hf⟩
      rw [step_read h hcheck] at hf
      cases hf
    · rintro ⟨f, hf⟩
      rw [step_write h hcheck] at hf
      split at hf <;> cases hf

/-- Settles O39: an accepted access passes the checks, and then BUSY stops a write only. -/
theorem writeWhileBusyFaults : Obligations.WriteWhileBusyFaults := by
  intro s t bytes v rest r off hc hbusy haccess
  have hcheck := (checkAccess_eq_ok_iff hc).mpr haccess
  exact ⟨fun h => (step_write h hcheck).trans (if_pos hbusy), fun h => ⟨_, step_read h hcheck⟩⟩

/-- Settles O42: an accepted read leaves a value for the host and uses up draws, and a refused one has no next state. -/
theorem hostReadsHaveNoSideEffect : Obligations.HostReadsHaveNoSideEffect := by
  intro s t tgt bytes rest h hstep
  rw [step_eq_hostRead h] at hstep
  rcases hostRead_cases tgt bytes { s with inputs := rest } with ⟨f, -, e⟩ | ⟨r, off, -, e⟩ <;> rw [e] at hstep <;>
    cases hstep
  rfl

/-- The two names of a place are checked alike (R60). -/
theorem checkAccess_address {c : Config} (hc : c.Valid) {r : Region} {off : Nat} (h : off < c.size r) (bytes : Nat) :
    checkAccess c (.address (c.base r + off)) bytes = checkAccess c (.offset r off) bytes := by
  rw [checkAccess, checkAccess, resolve_address hc h]
  rfl

/-- An address outside all regions is a bus fault (R64). -/
theorem checkAccess_outside {c : Config} {a : Nat} (h : ∀ r, a < c.base r ∨ c.base r + c.size r ≤ a) (bytes : Nat) :
    checkAccess c (.address a) bytes = .error .unmapped := by
  rw [checkAccess, resolve_outside h]

/-- Settles O54: a host access uses its target in the checks alone. -/
theorem busAddressNamesOffset : Obligations.BusAddressNamesOffset := by
  intro s bytes v rest hc
  refine ⟨fun r off hoff => ?_, fun a ha => ?_⟩
  · have hcheck := checkAccess_address hc hoff bytes
    refine ⟨?_, ?_⟩
    · rw [step_eq_hostRead rfl, step_eq_hostRead rfl, hostRead, hostRead, hcheck]
    · rw [step_eq_hostWrite rfl, step_eq_hostWrite rfl, hostWrite, hostWrite, hcheck]
  · have hcheck := checkAccess_outside ha bytes
    exact ⟨step_read_of_refused rfl hcheck, step_write_of_refused rfl hcheck⟩

end Sys2Proof.Machine
end

section
/-! The host's accesses to the buffers (R63, R66, R69): the bytes of a word, and what a write stores and a read
returns. -/

namespace Sys2Proof.Machine

open Sys2Proof.Claims

/-- Byte i of a write stands at its offset plus i (R63). -/
theorem Memory.lookup_writeWord (m : Memory) (a : Nat) {bytes i : Nat} (hi : i < bytes) (v : Word) :
    (m.writeBytes a (wordBytes bytes v)).lookup (a + i) = some (v.extractLsb' (8 * i) 8) := by
  rw [Memory.lookup_writeBytes, wordBytes_length, if_pos (by omega), Nat.add_sub_cancel_left]
  simp [wordBytes, hi]

/-- A write leaves the bytes before and after it. -/
theorem Memory.lookup_writeWord_outside (m : Memory) {a bytes b : Nat} (h : b < a ∨ a + bytes ≤ b) (v : Word) :
    (m.writeBytes a (wordBytes bytes v)).lookup b = m.lookup b := by
  rw [Memory.lookup_writeBytes, wordBytes_length, if_neg (by omega)]

/-- A field that lies above the low part of a word. -/
theorem extractLsb'_append_high {n m : Nat} (x : BitVec n) (y : BitVec m) (start len : Nat) :
    (x ++ y).extractLsb' (m + start) len = x.extractLsb' start len := by
  rw [BitVec.extractLsb'_append_eq_of_le (Nat.le_add_right m start), Nat.add_sub_cancel_left]

/-- The bytes of a word, the lowest first (R63). -/
theorem littleEndian_bytes (b0 b1 b2 b3 : Byte) :
    (littleEndian b0 b1 b2 b3).extractLsb' 0 8 = b0 ∧ (littleEndian b0 b1 b2 b3).extractLsb' 8 8 = b1 ∧
      (littleEndian b0 b1 b2 b3).extractLsb' 16 8 = b2 ∧ (littleEndian b0 b1 b2 b3).extractLsb' 24 8 = b3 := by
  have h1 : (b3 ++ b2 ++ b1 ++ b0).extractLsb' (8 + 0) 8 = b1 := by
    rw [extractLsb'_append_high, BitVec.extractLsb'_append_eq_right]
  have h2 : (b3 ++ b2 ++ b1 ++ b0).extractLsb' (8 + (8 + 0)) 8 = b2 := by
    rw [extractLsb'_append_high, extractLsb'_append_high, BitVec.extractLsb'_append_eq_right]
  have h3 : (b3 ++ b2 ++ b1 ++ b0).extractLsb' (8 + (8 + 8)) 8 = b3 := by
    rw [extractLsb'_append_high, extractLsb'_append_high, BitVec.extractLsb'_append_eq_left]
  exact ⟨BitVec.extractLsb'_append_eq_right, h1, h2, h3⟩

/-- While BUSY = 0 a host read of a buffer returns its bytes, and a read of IBUF always does (R63, R75). -/
theorem busValue_buffer {s : State} {src : Source} (h : src = .obuf → s.status.busy = false) (off bytes : Nat) :
    s.busValue (bufferRegion src) off bytes = busWord bytes (s.bufferByte src off) := by
  cases src with
  | ibuf => rfl
  | obuf =>
    have hbyte : s.obufByte off = s.bufferByte .obuf off := funext fun i => by simp [State.obufByte, h rfl]
    simp only [bufferRegion, State.busValue, hbyte]

/-- A written byte reads as it is. -/
theorem bufferByte_of_lookup {s : State} {src : Source} {off i : Nat} {b : Byte}
    (h : (s.buffer src).lookup (off + i) = some b) : s.bufferByte src off i = b :=
  Memory.byteAt_of_lookup h _

/-- Four written bytes read as their little-endian word (R63). -/
theorem busWord_of_lookup {s : State} {src : Source} {off : Nat} {b0 b1 b2 b3 : Byte}
    (h0 : (s.buffer src).lookup off = some b0) (h1 : (s.buffer src).lookup (off + 1) = some b1)
    (h2 : (s.buffer src).lookup (off + 2) = some b2) (h3 : (s.buffer src).lookup (off + 3) = some b3) :
    busWord 4 (s.bufferByte src off) = littleEndian b0 b1 b2 b3 := by
  simp only [busWord, bufferByte_of_lookup (i := 0) h0, bufferByte_of_lookup h1, bufferByte_of_lookup h2,
    bufferByte_of_lookup h3]
  rfl

/-- An access to one byte of a buffer, or to an aligned word, passes the checks (R62). -/
theorem checkAccess_buffer {c : Config} {src : Source} {off bytes : Nat}
    (hwidth : bytes = 1 ∨ (bytes = 4 ∧ off % 4 = 0)) (hend : off + bytes ≤ c.size (bufferRegion src)) :
    checkAccess c (.offset (bufferRegion src) off) bytes = .ok (bufferRegion src, off) := by
  refine checkAccess_offset (accepted_iff.mpr (hwidth.symm.imp_right fun h => ⟨h, ?_⟩)) hend
  cases src
  · exact Or.inl rfl
  · exact Or.inr rfl

/-- While BUSY = 0 a host write to a buffer stores its bytes there, and nothing else (R61, R63). -/
theorem step_write_buffer {s : State} {src : Source} {off bytes : Nat} {v : Word} {rest : List Input}
    (hidle : s.status.busy = false) (hwidth : bytes = 1 ∨ (bytes = 4 ∧ off % 4 = 0))
    (hend : off + bytes ≤ s.config.size (bufferRegion src))
    (hinputs : s.inputs = .write (.offset (bufferRegion src) off) bytes v :: rest) :
    ∃ t, step s = .next t ∧ t.buffer src = (s.buffer src).writeBytes off (wordBytes bytes v) ∧
      t = { s with inputs := rest, ibuf := t.ibuf, obuf := t.obuf } ∧
      (src = .ibuf → t.obuf = s.obuf) ∧ (src = .obuf → t.ibuf = s.ibuf) := by
  refine ⟨_, step_write_of_idle hinputs (checkAccess_buffer hwidth hend) hidle, ?_⟩
  cases src with
  | ibuf => exact ⟨rfl, rfl, fun _ => rfl, (nomatch ·)⟩
  | obuf => exact ⟨rfl, rfl, (nomatch ·), fun _ => rfl⟩

/-- Settles O40: a write stores the bytes of its word from its offset on, and a read puts four bytes together. -/
theorem hostWordsAreLittleEndian : Obligations.HostWordsAreLittleEndian := by
  rintro s src a v rest r hidle rfl
  refine ⟨fun halign hend hinputs => ?_, fun hend hinputs => ?_, fun halign hend hinputs b0 b1 b2 b3 h0 h1 h2 h3 => ?_⟩
  · obtain ⟨t, hstep, hbuffer, hframe⟩ := step_write_buffer hidle (Or.inr ⟨rfl, halign⟩) hend hinputs
    have hbyte (i : Nat) (hi : i < 4) : (t.buffer src).lookup (a + i) = some (v.extractLsb' (8 * i) 8) := by
      rw [hbuffer, Memory.lookup_writeWord _ _ hi]
    refine ⟨t, hstep, hbyte 0 (by decide), hbyte 1 (by decide), hbyte 2 (by decide), hbyte 3 (by decide),
      fun b hb => ?_, hframe⟩
    rw [hbuffer, Memory.lookup_writeWord_outside _ hb]
  · obtain ⟨t, hstep, hbuffer, hframe⟩ := step_write_buffer hidle (Or.inl rfl) hend hinputs
    refine ⟨t, hstep, ?_, fun b hb => ?_, hframe⟩
    · rw [hbuffer]
      exact Memory.lookup_writeWord _ a (i := 0) (by decide) v
    · rw [hbuffer, Memory.lookup_writeWord_outside _ (by omega)]
  · have hstep := step_read hinputs (checkAccess_buffer (Or.inr ⟨rfl, halign⟩) hend)
    rw [busValue_buffer fun _ => hidle, busWord_of_lookup h0 h1 h2 h3] at hstep
    exact ⟨_, _, hstep, rfl, littleEndian_bytes b0 b1 b2 b3⟩

/-- Settles O55: an 8-bit read is accepted at any offset of a buffer. -/
theorem hostByteReads : Obligations.HostByteReads := by
  intro s src a b rest hidle ha hb hinputs
  have hstep := step_read hinputs (checkAccess_buffer (Or.inl rfl) ha)
  have hvalue : busWord 1 (s.bufferByte src a) = b.setWidth 32 := by
    rw [busWord, if_pos rfl, bufferByte_of_lookup (i := 0) hb]
  rw [busValue_buffer fun _ => hidle, hvalue] at hstep
  exact ⟨_, hstep, rfl, rfl⟩

/-- A host read of a buffer uses the bytes it covers alone. -/
theorem busWord_congr {bytes : Nat} {f g : Nat → Byte} (hwidth : bytes = 1 ∨ bytes = 4)
    (h : ∀ j, j < bytes → f j = g j) : busWord bytes f = busWord bytes g := by
  rcases hwidth with rfl | rfl
  · simp only [busWord, h 0 (by decide), if_true]
  · simp only [busWord, h 0 (by decide), h 1 (by decide), h 2 (by decide), h 3 (by decide)]

/-- While BUSY = 0 what a place reads as depends on no draw, if a buffer's bytes there are written (R66, R69). -/
theorem busValue_again {s : State} (hidle : s.status.busy = false) {r : Region} {off bytes : Nat}
    (hwidth : bytes = 1 ∨ bytes = 4)
    (hwritten : ∀ j, j < bytes →
      (r = .ibuf → (s.ibuf.lookup (off + j)).isSome = true) ∧ (r = .obuf → (s.obuf.lookup (off + j)).isSome = true))
    (xs : List Input) (d : Option Word) (k : Nat) :
    State.busValue ({ s with inputs := xs, readData := d }.spend k) r off bytes = s.busValue r off bytes := by
  have hbyte (src : Source) (hsrc : ∀ j, j < bytes → ((s.buffer src).lookup (off + j)).isSome = true) :
      ∀ j, j < bytes → State.bufferByte ({ s with inputs := xs, readData := d }.spend k) src off j =
        s.bufferByte src off j := by
    intro j hj
    obtain ⟨b, hb⟩ := Option.isSome_iff_exists.mp (hsrc j hj)
    rw [bufferByte_of_lookup hb, bufferByte_of_lookup (b := b)]
    cases src <;> exact hb
  cases r with
  | reg =>
    simp only [State.busValue, State.spend_status, hidle, Bool.false_and, Bool.false_eq_true, if_false]
    cases regAt off <;> rfl
  | utab =>
    simp only [State.busValue, State.spend_status, hidle, Bool.false_eq_true, if_false]
    rfl
  | ibuf => exact busWord_congr hwidth (hbyte .ibuf fun j hj => (hwritten j hj).1 rfl)
  | obuf =>
    have hbytes := busWord_congr hwidth (hbyte .obuf fun j hj => (hwritten j hj).2 rfl)
    exact (busValue_buffer (s := State.spend k _) (src := .obuf) (fun _ => hidle) off bytes).trans
      (hbytes.trans (busValue_buffer (src := .obuf) (fun _ => hidle) off bytes).symm)

/-- Settles O56: the first read leaves what the second one's value depends on. -/
theorem hostReadsRepeat : Obligations.HostReadsRepeat := by
  intro s tgt bytes r off rest hc hidle haccess hwritten hinputs
  have hwidth : bytes = 1 ∨ bytes = 4 := by
    obtain ⟨-, -, ⟨h, -⟩ | ⟨h, -⟩⟩ := haccess
    · exact Or.inr h
    · exact Or.inl h
  have hcheck := (checkAccess_eq_ok_iff hc).mpr haccess
  refine ⟨_, _, _, step_read hinputs hcheck, step_read rfl hcheck, rfl, ?_⟩
  exact congrArg some (busValue_again hidle hwidth hwritten _ _ _)

end Sys2Proof.Machine
end

section
/-! The host's accesses to the registers and to UTAB (R21 to R35, R45, R75): what each register reads as, the fields of
STATUS, and what a write does. -/

namespace Sys2Proof.Machine

open Sys2Proof.Claims

/-- An aligned 32-bit access inside REG or UTAB passes the checks (R62). -/
theorem checkAccess_word {c : Config} {r : Region} {off : Nat} (halign : off % 4 = 0) (hend : off + 4 ≤ c.size r) :
    checkAccess c (.offset r off) 4 = .ok (r, off) :=
  checkAccess_offset (accepted_iff.mpr (Or.inl ⟨rfl, halign⟩)) hend

/-- Three registers take writes, each at its own offset (R22, R29). -/
theorem writeReg_of_ignored (s : State) (v : Word) {off : Nat} (hcmd : off ≠ 0x00) (harg0 : off ≠ 0x08)
    (harg1 : off ≠ 0x0C) : s.writeReg v (regAt off) = s := by
  have hcons {c : Prop} [Decidable c] {r r' : Reg} (hr : c → s.writeReg v r = s) (hr' : s.writeReg v r' = s) :
      s.writeReg v (if c then r else r') = s :=
    iteInduction (motive := fun r => s.writeReg v r = s) hr fun _ => hr'
  unfold regAt
  refine hcons (absurd · hcmd) (hcons (fun _ => rfl) (hcons (absurd · harg0) (hcons (absurd · harg1) ?_)))
  repeat refine hcons (fun _ => rfl) ?_
  rfl

/-- The offsets of REG that hold no register (R35). -/
theorem regAt_reserved {off : Nat} (halign : off % 4 = 0) (h : 0x34 ≤ off ∧ off ≤ 0x3C ∨ 0x4C ≤ off) :
    regAt off = .reserved := by
  unfold regAt
  repeat rw [if_neg (by omega)]

/-- Settles O41: of the registers only CMD, ARG0 and ARG1 take writes, and UTAB takes none. -/
theorem operandAndIgnoredWrites : Obligations.OperandAndIgnoredWrites := by
  intro s off v rest hidle halign
  have hstep {r : Region} {a : Nat} (ha : a % 4 = 0) (hend : a + 4 ≤ s.config.size r)
      (hinputs : s.inputs = .write (.offset r a) 4 v :: rest) :
      step s = .next (State.busStore { s with inputs := rest } r a 4 v) :=
    step_write_of_idle hinputs (checkAccess_word ha hend) hidle
  refine ⟨fun h => hstep (r := .reg) (by decide) ?_ h, fun h => hstep (r := .reg) (by decide) ?_ h,
    fun hend hcmd harg0 harg1 h => ?_, fun hend h => hstep (r := .utab) halign hend h⟩
  · exact (by decide : 0x08 + 4 ≤ 256)
  · exact (by decide : 0x0C + 4 ≤ 256)
  · rw [hstep (r := .reg) halign hend h, State.busStore, writeReg_of_ignored _ _ hcmd harg0 harg1]

/-- The step of an aligned 32-bit read of REG leaves the register for the host: as it is, but for a draw where R75 says
so. -/
theorem readData_of_reg_read {s t : State} {off : Nat} {rest : List Input} (halign : off % 4 = 0) (hend : off + 4 ≤ 256)
    (hinputs : s.inputs = .read (.offset .reg off) 4 :: rest) (hstep : step s = .next t)
    (hexact : s.status.busy = false ∨ exactWhileBusy (regAt off) = true) :
    t.readData = some (s.readReg (regAt off)) := by
  rw [step_read hinputs (checkAccess_word halign hend)] at hstep
  cases hstep
  refine congrArg some (if_neg ?_)
  rcases hexact with h | h <;> simp [h]

/-- Settles O43: idle, each offset reads as the register that stands there. -/
theorem registerMapReads : Obligations.RegisterMapReads := by
  intro s t off rest hidle halign hend hinputs hstep
  have hbit : off = 0x2C → (s.readReg (regAt off)).toNat = s.br.bit.toNat := by
    rintro rfl
    have h := s.br.bit.isLt
    show (s.br.bit.setWidth 32).toNat = s.br.bit.toNat
    rw [BitVec.toNat_setWidth]
    omega
  have hsrc : off = 0x30 → s.readReg (regAt off) = (match s.br.src with | .ibuf => 0 | .obuf => 1) := by
    rintro rfl
    show BitVec.ofNat 32 s.br.src.bit = _
    cases s.br.src <;> rfl
  have hreserved : 0x34 ≤ off ∧ off ≤ 0x3C ∨ 0x4C ≤ off → s.readReg (regAt off) = 0 := by
    intro h
    rw [regAt_reserved halign h]
    rfl
  refine ⟨_, readData_of_reg_read halign hend hinputs hstep (Or.inl hidle), ?_, ?_, ?_, ?_, ?_, ?_, ?_, ?_, ?_, ?_,
    hbit, hsrc, ?_, ?_, ?_, hreserved⟩
  all_goals
    rintro rfl
    rfl

/-- STATUS above its five flags (R23). -/
theorem status_word_high (st : Status) (b : BrState) (start len : Nat) :
    (st.word b).extractLsb' (5 + start) len = (0#14 ++ b.field ++ st.errCode ++ 0#3).extractLsb' start len := by
  rw [show 5 + start = 1 + (1 + (1 + (1 + (1 + start)))) by omega]
  unfold Status.word
  change BitVec.extractLsb' (n := 14 + 2 + 8 + 3 + 1 + 1 + 1 + 1 + 1) _ len _ = _
  iterate 5 rw [extractLsb'_append_high]

/-- The flags of STATUS (R23). -/
theorem status_word_flags (st : Status) (b : BrState) :
    (st.word b).getLsbD 0 = st.busy ∧ (st.word b).getLsbD 1 = st.done ∧ (st.word b).getLsbD 2 = st.err ∧
      (st.word b).getLsbD 3 = st.short ∧ (st.word b).getLsbD 4 = st.nosc := by
  unfold Status.word
  refine ⟨?_, ?_, ?_, ?_, ?_⟩
  all_goals
    change BitVec.getLsbD (w := 14 + 2 + 8 + 3 + 1 + 1 + 1 + 1 + 1) _ _ = _
    simp only [BitVec.getLsbD_append]
    simp

/-- Settles O44: STATUS reads exactly, busy or not, and its word is made of its fields. -/
theorem statusWordLayout : Obligations.StatusWordLayout := by
  intro s t rest hinputs hstep
  have hread := readData_of_reg_read (by decide) (by decide) hinputs hstep (Or.inr rfl)
  obtain ⟨hbusy, hdone, herr, hshort, hnosc⟩ := status_word_flags s.status s.br.state
  refine ⟨_, hread, hbusy, hdone, herr, hshort, hnosc, ?_, ?_, ?_, ?_⟩
  · exact (status_word_high _ _ 0 3).trans BitVec.extractLsb'_append_eq_right
  · refine (status_word_high _ _ (3 + 0) 8).trans ?_
    rw [extractLsb'_append_high, BitVec.extractLsb'_append_eq_right]
  · refine (status_word_high _ _ (3 + (8 + 0)) 2).trans ?_
    rw [extractLsb'_append_high, extractLsb'_append_high, BitVec.extractLsb'_append_eq_right]
    cases s.br.state <;> rfl
  · refine (status_word_high _ _ (3 + (8 + 2)) 14).trans ?_
    rw [extractLsb'_append_high, extractLsb'_append_high, BitVec.extractLsb'_append_eq_left]
    rfl

/-- Word 3 of every entry reads 0 (R45). -/
theorem readUtab_word_three (s : State) (k : Nat) : s.readUtab (16 * k + 4 * 3) = 0 :=
  if_pos (by omega)

/-- The other words of a written entry stand at offset 16k + 4 * word (R45). -/
theorem readUtab_of_entry {s : State} {k word : Nat} (hword : word < 3) {e : UnitEntry} (he : s.utab[k]? = some e) :
    s.readUtab (16 * k + 4 * word) = if word = 0 then e.dataOff else if word = 1 then e.len else e.hdr := by
  have hplace : (16 * k + 4 * word) / 4 % 4 = word := by omega
  have hentry : (16 * k + 4 * word) / 16 = k := by omega
  simp only [State.readUtab, hplace, hentry, he, if_neg (show word ≠ 3 by omega)]

/-- Settles O45: idle, a word of UTAB reads as its entry has it. -/
theorem utabReads : Obligations.UtabReads := by
  intro s t k word rest hidle hk hword hinputs hstep
  have hend : 16 * k + 4 * word + 4 ≤ s.config.size .utab := by
    show _ ≤ 16 * s.config.utabDepth
    omega
  have hvalue : s.busValue .utab (16 * k + 4 * word) 4 = s.readUtab (16 * k + 4 * word) := if_neg (by simp [hidle])
  rw [step_read hinputs (checkAccess_word (by omega) hend), hvalue] at hstep
  cases hstep
  refine ⟨?_, fun e he => ⟨?_, ?_, ?_⟩⟩ <;> rintro rfl
  · exact congrArg some (readUtab_word_three s k)
  all_goals exact congrArg some (readUtab_of_entry (by decide) he)

/-- A parameter that R6 bounds by a word reads as it is (R33). -/
theorem capWord_toNat {n : Nat} (h : n ≤ 2 ^ 32 - 2) : (BitVec.ofNat 32 n).toNat = n :=
  Nat.mod_eq_of_lt (by omega)

/-- An accepted read of a buffer leaves the word of its bytes for the host, busy or not for IBUF (R63, R75). -/
theorem readData_of_ibuf_read {s t : State} {off bytes : Nat} {rest : List Input}
    (hinputs : s.inputs = .read (.offset .ibuf off) bytes :: rest) (hstep : step s = .next t) :
    t.readData = some (busWord bytes (s.bufferByte .ibuf off)) := by
  rcases hostRead_cases (.offset .ibuf off) bytes { s with inputs := rest } with ⟨f, -, e⟩ | ⟨r, a, hcheck, e⟩ <;>
    rw [step_eq_hostRead hinputs, e] at hstep <;> cases hstep
  obtain ⟨hplace, -, -⟩ := checkAccess_ok hcheck
  cases hplace
  rfl

/-- A read of REG that has a next state is accepted (R62). -/
theorem aligned_of_reg_read {s t : State} {off : Nat} {rest : List Input}
    (hinputs : s.inputs = .read (.offset .reg off) 4 :: rest) (hstep : step s = .next t) :
    off % 4 = 0 ∧ off + 4 ≤ 256 := by
  rcases hostRead_cases (.offset .reg off) 4 { s with inputs := rest } with ⟨f, -, e⟩ | ⟨r, a, hcheck, -⟩
  · rw [step_eq_hostRead hinputs, e] at hstep
    cases hstep
  · obtain ⟨hplace, hwidth, hend⟩ := checkAccess_ok hcheck
    cases hplace
    exact ⟨by simpa using accepted_iff.mp hwidth, hend⟩

/-- Settles O46: the exact registers of R75 are read as they are, and IBUF is read busy as it is idle. -/
theorem exactReadsWhileBusy : Obligations.ExactReadsWhileBusy := by
  intro s t off rest hinv hbusy hstep
  obtain ⟨⟨-, hibuf⟩, ⟨-, hobuf⟩, ⟨-, hutab⟩, -⟩ := hinv.config
  refine ⟨fun hinputs => ?_, fun b hinputs hb => ?_, fun b0 b1 b2 b3 hinputs h0 h1 h2 h3 => ?_⟩
  · obtain ⟨halign, hend⟩ := aligned_of_reg_read hinputs hstep
    by_cases hexact : exactWhileBusy (regAt off) = true
    · refine ⟨_, readData_of_reg_read halign hend hinputs hstep (Or.inr hexact), ?_, ?_, ?_, ?_, ?_, ?_⟩
      all_goals rintro rfl
      · obtain ⟨hb, hd, -⟩ := status_word_flags s.status s.br.state
        exact ⟨hb.trans hbusy, hd.trans (Bool.eq_false_iff.mpr fun h => hinv.notBoth ⟨hbusy, h⟩)⟩
      · rfl
      · rfl
      · exact capWord_toNat hibuf
      · exact capWord_toNat hobuf
      · exact capWord_toNat (by omega)
    · rw [step_read hinputs (checkAccess_word halign hend)] at hstep
      cases hstep
      refine ⟨_, rfl, ?_, ?_, ?_, ?_, ?_, ?_⟩ <;> rintro rfl <;> exact absurd rfl hexact
  · rw [readData_of_ibuf_read hinputs hstep, busWord, if_pos rfl,
      bufferByte_of_lookup (src := .ibuf) (i := 0) hb]
  · rw [readData_of_ibuf_read hinputs hstep, busWord_of_lookup (src := .ibuf) h0 h1 h2 h3]
    exact ⟨_, rfl, littleEndian_bytes b0 b1 b2 b3⟩

end Sys2Proof.Machine
end

section
/-! Runs of the machine: what stops it (R229), the end of a `wait` (R101, R281), and the host operations of a command
line (R100). -/

namespace Sys2Proof.Machine

open Sys2Proof.Claims

/-- The engine never hangs (R214). -/
theorem engineStep_next (s : State) : ∃ t, engineStep s = .next t := by
  rcases engineStep_cases s with ⟨-, e⟩ | ⟨w, f, -, -, e⟩ | ⟨w, i, -, -, e⟩ <;> exact ⟨_, e⟩

/-- A step has a next state, or is a host access that stops the machine: by a bus fault, or a write while BUSY = 1
(R229). -/
theorem step_next_or_fault (s : State) : (∃ t, step s = .next t) ∨
    ((∃ t b rest, s.inputs = .read t b :: rest) ∨ ∃ t b v rest, s.inputs = .write t b v :: rest) ∧
      ((∃ c, step s = .fault (.busFault c)) ∨ (step s = .fault .hostWriteWhileBusy ∧ s.status.busy = true)) := by
  rcases step_cases s with ⟨-, e⟩ | ⟨rest, -, e⟩ | ⟨t, b, rest, hinputs, e⟩ | ⟨t, b, v, rest, hinputs, e⟩ |
    ⟨rest, -, e⟩ | ⟨rest, -, e⟩ <;> rw [e]
  · exact Or.inl (engineStep_next _)
  · exact Or.inl (engineStep_next _)
  · rcases hostRead_cases t b { s with inputs := rest } with ⟨f, -, e⟩ | ⟨r, off, -, e⟩ <;> rw [e]
    · exact Or.inr ⟨Or.inl ⟨t, b, rest, hinputs⟩, Or.inl ⟨f, rfl⟩⟩
    · exact Or.inl ⟨_, rfl⟩
  · rcases hostWrite_cases t b v { s with inputs := rest } with ⟨f, -, e⟩ | ⟨r, off, -, ⟨hbusy, e⟩ | ⟨-, e⟩⟩ <;> rw [e]
    · exact Or.inr ⟨Or.inr ⟨t, b, v, rest, hinputs⟩, Or.inl ⟨f, rfl⟩⟩
    · exact Or.inr ⟨Or.inr ⟨t, b, v, rest, hinputs⟩, Or.inr ⟨rfl, hbusy⟩⟩
    · exact Or.inl ⟨_, rfl⟩
  · unfold waitStep
    split
    · exact Or.inl ⟨_, rfl⟩
    · exact Or.inl (engineStep_next _)
  · exact Or.inl ⟨_, rfl⟩

/-- Settles O50: a step that has no next state is a host access that faults. -/
theorem onlyHostAccessesFault : Obligations.OnlyHostAccessesFault := by
  intro s
  have hcases := step_next_or_fault s
  refine ⟨fun r hr => ?_, fun f hf => ?_, fun hread hwrite => ?_⟩
  · rcases hcases with ⟨t, e⟩ | ⟨-, ⟨c, e⟩ | ⟨e, -⟩⟩ <;> cases e.symm.trans hr
  · rcases hcases with ⟨t, e⟩ | ⟨-, ⟨c, e⟩ | ⟨e, hbusy⟩⟩ <;> cases e.symm.trans hf
    · exact Or.inl ⟨c, rfl⟩
    · exact Or.inr ⟨rfl, hbusy⟩
  · rcases hcases with hnext | ⟨⟨t, b, rest, h⟩ | ⟨t, b, v, rest, h⟩, -⟩
    · exact hnext
    · exact absurd h (hread t b rest)
    · exact absurd h (hwrite t b v rest)

/-- The engine's step on a full latch completes the command, legal word or not, and leaves what is pending (R212). -/
theorem engineStep_completes {s : State} (h : s.latch.isSome = true) :
    ∃ t, engineStep s = .next t ∧ t.inputs = s.inputs ∧ t.latch = none ∧ t.status.done = true ∧
      t.status.busy = false := by
  rcases engineStep_cases s with ⟨hempty, -⟩ | ⟨w, f, -, -, e⟩ | ⟨w, i, -, -, e⟩
  · rw [hempty] at h
    cases h
  · exact ⟨_, e, rfl, rfl, rfl, rfl⟩
  · refine ⟨_, e, ?_⟩
    cases hbody : commandBody i s with
    | error f => exact ⟨rfl, rfl, rfl, rfl⟩
    | ok t =>
      obtain ⟨-, -, -, -, -, hinputs, -⟩ := commandBody_keeps hbody
      exact ⟨hinputs, rfl, rfl, rfl⟩

/-- A state with other host operations pending and another value last read by the host. -/
def State.withOutside (s : State) (xs : List Input) (r : Option Word) : State := { s with inputs := xs, readData := r }

section
variable {s t : State} {rest : List Input}

/-- A poll that reads DONE = 1 ends the `wait` (R101). -/
theorem step_wait_of_done (hinputs : s.inputs = .wait :: rest) (hdone : s.status.done = true) :
    step s = .next (s.withOutside rest (some (s.status.word s.br.state))) := by
  simp only [step, takeTurn, hinputs, waitStep, hdone, if_true]
  rfl

/-- A poll that reads DONE = 0 lets the engine take its step (R281). -/
theorem step_wait_of_not_done (hinputs : s.inputs = .wait :: rest) (hdone : s.status.done = false) :
    step s = engineStep (s.withOutside (.wait :: rest) (some (s.status.word s.br.state))) := by
  simp only [step, takeTurn, hinputs, waitStep, hdone, Bool.false_eq_true, if_false, State.withOutside]
  rw [← hinputs]
  rfl

theorem steps_succ (h : step s = .next t) (k : Nat) : steps (k + 1) s = steps k t := by
  simp only [steps, h]

end

/-- Settles O51: the first poll lets the engine complete the command, and the second reads its STATUS. -/
theorem waitEnds : Obligations.WaitEnds := by
  intro s rest hinv hinputs hbusy
  have hdone : s.status.done = false := Bool.eq_false_iff.mpr fun h => hinv.notBoth ⟨hbusy, h⟩
  have hpoll := step_wait_of_not_done hinputs hdone
  obtain ⟨t, hengine, hinputs', hlatch, hdone', hbusy'⟩ :=
    engineStep_completes (s := s.withOutside (.wait :: rest) (some _)) (hinv.busyIsLatched.symm.trans hbusy)
  have hend := step_wait_of_done hinputs' hdone'
  obtain ⟨hb, hd, -⟩ := status_word_flags t.status t.br.state
  exact ⟨_, (steps_succ (hpoll.trans hengine) 1).trans (steps_succ hend 0), rfl, hlatch, hdone', hbusy', _, rfl,
    hb.trans hbusy', hd.trans hdone'⟩

section
variable (s : State) (xs : List Input) (r : Option Word)

theorem readCommand_withOutside (dec : (Nat → Bool) → Nat → Except ErrorCode (Nat × Nat)) (f : Nat → Word) :
    (s.withOutside xs r).readCommand dec f = (s.readCommand dec f).map (·.withOutside xs r) := by
  have hbr : (s.withOutside xs r).br = s.br := rfl
  have hbits : (s.withOutside xs r).streamBit = s.streamBit := rfl
  rw [State.readCommand, State.readCommand, hbr, hbits]
  split
  · split <;> rfl
  · rfl

/-- A command looks at nothing outside ANFE: its writes, or its error, are the same. -/
theorem commandBody_withOutside (i : Instr) :
    commandBody i (s.withOutside xs r) = (commandBody i s).map (·.withOutside xs r) := by
  cases i with
  | nop => rfl
  | scan =>
    change (if s.config.ibufBytes < s.argOff + s.argLen then _ else
      if s.config.utabDepth < s.startCodes.length then _ else _) = Except.map _ s.scanRange
    rw [State.scanRange]
    split
    · rfl
    · split <;> rfl
  | strip =>
    change (if s.config.ibufBytes < s.argOff + s.argLen then _ else
      if s.config.obufBytes < s.argLen then _ else _) = Except.map _ s.stripRange
    rw [State.stripRange]
    split
    · rfl
    · split <;> rfl
  | brInit src =>
    rcases Nat.lt_or_ge (s.capacity src) (s.argOff + s.argLen) with hover | hfits
    · rw [commandBody_brInit_of_lt hover]
      exact commandBody_brInit_of_lt (s := s.withOutside xs r) hover
    · rw [commandBody_brInit_of_le hfits]
      exact commandBody_brInit_of_le (s := s.withOutside xs r) hfits
  | rdbits n =>
    rcases Nat.lt_or_ge 32 n with hn | hn
    · rw [commandBody_rdbits_of_lt hn, commandBody_rdbits_of_lt hn]
      rfl
    · rw [commandBody_rdbits_of_le hn, commandBody_rdbits_of_le hn, readCommand_withOutside]
  | rdbit | rdue | rdse => exact readCommand_withOutside s xs r _ _

/-- A command leaves what is outside ANFE, and does the same whatever is there. -/
theorem exec_withOutside {i : Instr} {u : State} (h : exec i s = .next u) :
    exec i (s.withOutside xs r) = .next (u.withOutside xs r) := by
  have hdraws : commandDraws i (s.withOutside xs r) = commandDraws i s := by cases i <;> rfl
  rw [exec_eq_complete] at h ⊢
  rw [commandBody_withOutside, hdraws]
  cases hbody : commandBody i s with
  | error e => rw [hbody] at h; cases h; rfl
  | ok t => rw [hbody] at h; cases h; rfl

end

/-- `cmd w` for the word of a well-formed command: the CMD write issues it, the first poll runs it, and the second reads
the STATUS it left (R100, R101). -/
theorem steps_commandInputs {s : State} {i : Instr} (hi : i.wf = true) (hidle : s.status.busy = false)
    (hinputs : s.inputs = commandInputs (encode i)) :
    ∃ u, exec i (issued { s with inputs := [] } (encode i)) = .next u ∧
      steps 3 s = .next { u with inputs := [], readData := some (u.status.word u.br.state) } := by
  obtain ⟨s0, hs0⟩ : ∃ s0, s0 = issued { s with inputs := [] } (encode i) := ⟨_, rfl⟩
  have hlatch : s0.latch = some (encode i) := by rw [hs0]; rfl
  have hnot : s0.status.done = false := by rw [hs0]; rfl
  obtain ⟨u, hexec, -, -, hdone, -⟩ := everyCommandCompletes i s0
  have hissue : step s = .next (s0.withOutside [.wait] s.readData) := by
    rw [hs0]
    exact step_write_of_idle hinputs (checkAccess_cmd (Or.inl rfl)) hidle
  have hpoll : step (s0.withOutside [.wait] s.readData) =
      engineStep (s0.withOutside [.wait] (some (s0.status.word s0.br.state))) := step_wait_of_not_done rfl hnot
  rw [engineStep_of_parse (s := s0.withOutside [.wait] _) hlatch (parse_encode hi),
    exec_withOutside s0 _ _ hexec] at hpoll
  have hend := step_wait_of_done (s := u.withOutside [.wait] (some (s0.status.word s0.br.state))) rfl hdone
  exact ⟨u, hs0 ▸ hexec, (steps_succ hissue 2).trans ((steps_succ hpoll 1).trans (steps_succ hend 0))⟩

/-- The host operations of a command with its operands, if it has any (R100). -/
def lineInputs (i : Instr) : Option (Word × Word) → List Input
  | none => commandInputs (encode i)
  | some a => operandInputs (encode i) a.1 a.2

/-- An assembler takes a count of at most 32, which is a well-formed one (R100). -/
theorem rdbitsInputs_eq_some {n : Nat} {xs : List Input} (h : rdbitsInputs n = some xs) :
    (Instr.rdbits n).wf = true ∧ lineInputs (.rdbits n) none = xs := by
  unfold rdbitsInputs at h
  split at h
  · rename_i hn
    have hle : n ≤ 32 := of_decide_eq_true hn
    exact ⟨decide_eq_true (by omega), Option.some.inj h⟩
  · cases h

/-- A command line assembles to the operations of its command, which is well-formed (R100, R101). -/
theorem assemble_of_lineCommand {l : AsmLine} {i : Instr} {args : Option (Word × Word)} {xs : List Input}
    (hline : lineCommand l = some (i, args)) (hxs : assemble l = some xs) : i.wf = true ∧ lineInputs i args = xs := by
  cases l with
  | rdbits n | hdr | skip n => cases hline; exact rdbitsInputs_eq_some hxs
  | nop | scan off len | strip off len | brinit src b size | rdbit | rdue | rdse =>
    cases hline
    exact ⟨rfl, Option.some.inj hxs⟩
  | wait | cmd w | wr r a v | wrb r a bytes | rd r a => cases hline

/-- Settles O52: the operand writes come first, and then the command runs. -/
theorem commandLineRuns : Obligations.CommandLineRuns := by
  intro s l i args xs hline hxs hinputs hidle
  obtain ⟨hi, rfl⟩ := assemble_of_lineCommand hline hxs
  cases args with
  | none =>
    obtain ⟨u, hexec, hsteps⟩ := steps_commandInputs hi hidle hinputs
    exact ⟨_, u, hsteps, hexec, rfl⟩
  | some a =>
    have harg0 := (operandAndIgnoredWrites s 0x08 a.1 _ hidle rfl).1 hinputs
    have harg1 := (operandAndIgnoredWrites { s with
      inputs := writeRegister 0x0C a.2 :: commandInputs (encode i), arg0 := a.1 } 0x0C a.2 _ hidle rfl).2.1 rfl
    obtain ⟨u, hexec, hsteps⟩ := steps_commandInputs (s := { s with
      inputs := commandInputs (encode i), arg0 := a.1, arg1 := a.2 }) hi hidle rfl
    refine ⟨_, u, ?_, hexec, rfl⟩
    exact (steps_succ harg0 4).trans ((steps_succ harg1 3).trans hsteps)

end Sys2Proof.Machine
end

section
/-! Several units on one host bus (R246): whose step a turn and a host access are. -/

namespace Sys2Proof.Machine

open Sys2Proof.Claims

/-- Settles O53: a turn of unit k is its own step, put back at k. -/
theorem instancesAreIndependent : Obligations.InstancesAreIndependent := by
  intro p q k s hunit hturn
  rcases Platform.stepOn_cases hunit [] with ⟨t, q', hstep, h, hself, hothers⟩ | ⟨f, -, h⟩ | ⟨r, -, h⟩ <;>
    cases h.symm.trans hturn
  exact ⟨⟨t, hstep, hself⟩, hothers⟩

/-- On a valid platform a bus address inside a region of unit k is routed to k: no unit before it has a region there
(R246). -/
theorem Platform.route_of_unit {p : Platform} (hp : p.Valid) {k : Nat} {s : State} (hunit : p.unit k = some s)
    {r : Region} {off : Nat} (hoff : off < s.config.size r) : p.route (s.config.base r + off) = some k := by
  obtain ⟨hvalid, hapart⟩ := hp
  obtain ⟨u, hu, rfl⟩ := Option.map_eq_some_iff.mp hunit
  obtain ⟨hk, rfl⟩ := List.getElem?_eq_some_iff.mp hu
  refine List.findIdx?_eq_some_iff_getElem.mpr ⟨hk, ?_, fun j hj hresolve => ?_⟩
  · exact Option.isSome_of_eq_some (resolve_address (hvalid _ (List.getElem_mem hk)) hoff)
  · obtain ⟨r', hbase, hend⟩ := resolve_address_some hresolve
    have happ := List.pairwise_iff_getElem.mp hapart j k (hj.trans hk) hk hj r' r
    dsimp only at hbase hend hoff
    omega

/-- Outside the regions of all units an address is routed to none. -/
theorem Platform.route_outside {p : Platform} {a : Nat}
    (h : ∀ s ∈ p.units, ∀ r : Region, a < s.config.base r ∨ s.config.base r + s.config.size r ≤ a) :
    p.route a = none :=
  List.findIdx?_eq_none_iff.mpr fun s hs => by rw [resolve_outside (h s hs)]; rfl

/-- Settles O57: the address is routed to the unit, whose step the access then is. -/
theorem busReachesOneInstance : Obligations.BusReachesOneInstance := by
  intro p bytes v hp
  refine ⟨fun k s r off a x y hunit hoff ha haccess => ?_, fun a ha => ?_⟩
  · have hroute : p.route a = some k := ha ▸ Platform.route_of_unit hp hunit hoff
    have hstep : p.step x = p.stepOn k [y] := by
      rcases haccess with ⟨rfl, rfl⟩ | ⟨rfl, rfl⟩ <;> simp only [Platform.step, Platform.access, hroute]
    rw [hstep]
    have hcases := Platform.stepOn_cases hunit [y]
    refine ⟨fun t' ht => ?_, fun f' hf => ?_⟩
    · rcases hcases with ⟨t, q, h, hq, hself, hothers⟩ | ⟨f, h, -⟩ | ⟨e, h, -⟩ <;> cases h.symm.trans ht
      exact ⟨q, hq, hself, hothers⟩
    · rcases hcases with ⟨t, q, h, -⟩ | ⟨f, h, hq⟩ | ⟨e, h, -⟩ <;> cases h.symm.trans hf
      exact hq
  · have hroute := Platform.route_outside ha
    refine ⟨?_, ?_⟩ <;> simp only [Platform.step, Platform.access, hroute]

end Sys2Proof.Machine
end
